-- ==== Sys2Proof/Word.lean ====
section
/-! DEFINITION. The machine's one data type: the signed 64-bit cell value (spec 00_scope.md R7, R8). -/

namespace Sys2Proof

/-- An int64: the type of every cell, input, output, `rb` and `ip` value (R8).
Its number is `BitVec.toInt`, in the range -2^63 to 2^63 - 1 (log entry 6). -/
abbrev Word := BitVec 64

end Sys2Proof
end

