-- ==== Sys2Proof/Config.lean ====
section
/-! DEFINITION. The parameters of the machine (spec 00_scope.md R7), which no step changes (10_state.md R22). -/

namespace Sys2Proof

/-- `OVERFLOW_POLICY` (R7, R9): what add, mul and arb do with a result outside the int64 range. -/
inductive OverflowPolicy where
  /-- the result is the fault ArithmeticOverflow, and nothing is written -/
  | fault
  /-- the result is reduced modulo 2^64 into the int64 range -/
  | wrap
deriving DecidableEq, Repr

/-- The two parameters that choose a behaviour. `MEM_LEN`, the third, is `State.memLen`. -/
structure Config where
  overflowPolicy : OverflowPolicy
  /-- `STRICT_MODE_DIGITS` (R47): an opcode word with digits above its last mode digit is illegal -/
  strictModeDigits : Bool
deriving DecidableEq, Repr

/-- The defaults of R7: policy fault, strict digits. -/
def Config.default : Config where
  overflowPolicy := .fault
  strictModeDigits := true

/-- `MEM_LEN` (R7, D23): a number of cells from 0 to 2^63 - 1. -/
abbrev MemLen := Fin (2 ^ 63)

/-- DESIGN CHOICE (log entry 4): the `MEM_LEN` of the reset state, the largest the spec allows. -/
def Config.resetMemLen : MemLen := ⟨2 ^ 63 - 1, by decide⟩

end Sys2Proof
end

