-- ==== Sys2Proof/Machine/State.lean ====
section
/-! DEFINITION. The state of one instance as plain data, its reset value, and the reasons a step can stop
(spec 10_state.md, 60_exceptions.md R93 and R94). -/

namespace Sys2Proof.Machine

/-- The machine's fault kinds, codes 1 to 5 of R93. Code 6 is a failure of the driver (`Ports.lean`). -/
inductive FaultKind where
  /-- code 1: an address, the `ip` or an operand cell lies outside memory -/
  | outOfBounds
  /-- code 2: the code is not in the table, or the opcode word is negative -/
  | illegalOpcode
  /-- code 3: a write operand specifies immediate mode -/
  | illegalWriteMode
  /-- code 4: a mode digit from 3 to 9, or excess digits under strict mode digits -/
  | illegalParameterMode
  /-- code 5: a result outside the int64 range under the policy fault -/
  | arithmeticOverflow
deriving DecidableEq, Repr

/-- The fields of a fault that its `raise` names (R11, R94). -/
structure FaultInfo where
  kind : FaultKind
  operand : Option Nat := none
  raw : Option Word := none
  addr : Option Int := none
deriving DecidableEq, Repr

/-- The fault record of R94. `addr` is an unbounded integer: R63's sum is never wrapped. -/
structure FaultRecord where
  kind : FaultKind
  ip : Word
  word : Option Word
  operand : Option Nat
  raw : Option Word
  addr : Option Int
  rb : Word
deriving DecidableEq, Repr

/-- R19: the run status, with the fault latch. -/
inductive Status where
  | running
  | halted
  | faulted (f : FaultRecord)
deriving DecidableEq, Repr

/-- The results of a step (R55). -/
inductive StepResult where
  /-- `Continue`: one instruction completed, and no event occurred -/
  | continued
  /-- `Output(v)` -/
  | output (v : Word)
  /-- `NeedsInput` -/
  | needsInput
  /-- `Halted` -/
  | halted
  /-- `Fault(f)` -/
  | fault (f : FaultRecord)
deriving DecidableEq, Repr

/-- Memory: the cells that do not read 0, as pairs of address and value with the addresses rising
(log entry 5). The unit is the cell: nothing narrower is addressable (R26, R27). -/
abbrev Memory := List (Nat × Word)

/-- The state of one instance: the tuple `(mem, ip, rb, pending, status)` of 10_state.md, the parameters
of R7 that stay as they are (R22), and the result of the latest step. -/
structure State where
  /-- R14 -/
  mem : Memory
  /-- `MEM_LEN`, R7 and R25: fixed for the life of the instance -/
  memLen : MemLen
  /-- R15: the index of the next opcode word -/
  ip : Word
  /-- R16: the relative base -/
  rb : Word
  /-- R17: the pending-input slot -/
  pending : Option Word
  /-- R19 -/
  status : Status
  /-- `OVERFLOW_POLICY` and `STRICT_MODE_DIGITS`, R7 and R22 -/
  config : Config
  /-- the model's own field (log entry 1): the result of the latest step (R55), none before the first -/
  lastResult : Option StepResult
deriving DecidableEq, Repr

/-- What `Host.Outcome.fault` would carry. It has no constructor: the spec's step is a total function
(R55), and taking a fault is a next state with `status = faulted f` (R95, R96), so no step stops with one.
Nothing raises it; safe (log entry 2). -/
inductive Fault where
deriving DecidableEq, Repr

/-- Why the model would give an instruction no meaning. -/
inductive Refusal where
  /-- Raised by `exec` alone, for an instruction without a meaning in the model; safe. No arm of this
  model raises it. -/
  | notModelled (mnemonic : String)
deriving DecidableEq, Repr

/-- The machine right after construction (R82, R107, R108) with no program in memory (log entries 4, 5, 7)
and the default parameters of R7. -/
def State.reset : State where
  mem := []
  memLen := Config.resetMemLen
  ip := 0
  rb := 0
  pending := none
  status := .running
  config := Config.default
  lastResult := none

end Sys2Proof.Machine
end

