-- ==== Sys2Proof/Machine/Ops.lean ====
section
/-! DEFINITION. The named operations: cells of memory, the range check on results, taking a fault, moving
`ip`, and the end of a meaning (spec 00_scope.md R9 and R11, 20_memory.md R23 to R26, 40_dispatch.md R65,
60_exceptions.md R93 to R96). -/

namespace Sys2Proof.Machine

/-! ### Memory -/

/-- `mem[a]` (R11, R26). A cell that is not listed reads 0. -/
def Memory.read (m : Memory) (a : Nat) : Word :=
  match m with
  | [] => 0
  | (b, w) :: rest => if a = b then w else Memory.read rest a

/-- `mem[a] <- v` (R11, R26), in the canonical form: a cell that becomes 0 is not listed. -/
def Memory.write (m : Memory) (a : Nat) (v : Word) : Memory :=
  match m with
  | [] => if v = 0 then [] else [(a, v)]
  | (b, w) :: rest =>
    if a < b then if v = 0 then (b, w) :: rest else (a, v) :: (b, w) :: rest
    else if a = b then if v = 0 then rest else (a, v) :: rest
    else (b, w) :: Memory.write rest a v

/-- The canonical form: addresses strictly rising, no cell listed with the value 0. -/
abbrev Memory.wf (m : Memory) : Prop :=
  m.Pairwise (fun p q => p.1 < q.1) ∧ ∀ p ∈ m, p.2 ≠ 0

/-- The memory that holds `cells` from address `a` on and 0 elsewhere, in canonical form. -/
def Memory.ofCells : Nat → List Word → Memory
  | _, [] => []
  | a, w :: ws => if w = 0 then Memory.ofCells (a + 1) ws else (a, w) :: Memory.ofCells (a + 1) ws

/-- `m` with `cells` written from address `a` on, one cell after the other. -/
def Memory.writeCells (m : Memory) (a : Nat) : List Word → Memory
  | [] => m
  | w :: ws => Memory.writeCells (m.write a w) (a + 1) ws

/-- `inBounds(a)`: `0 <= a < MEM_LEN` (R23). -/
abbrev State.inBounds (s : State) (a : Int) : Prop := 0 ≤ a ∧ a < (s.memLen.val : Int)

/-- The cell at `a` if `a` is in bounds (R23). -/
def State.cell? (s : State) (a : Int) : Option Word :=
  if s.inBounds a then some (s.mem.read a.toNat) else none

/-- `mem[d] <- v` for a resolved destination `d`. -/
def State.store (s : State) (d : Nat) (v : Word) : State := { s with mem := s.mem.write d v }

/-! ### Results in the int64 range (R9) -/

/-- `fitsI64(v)` (R9). -/
abbrev fitsI64 (v : Int) : Prop := -2 ^ 63 ≤ v ∧ v ≤ 2 ^ 63 - 1

/-- `toI64(v)` (R9): `v` itself where it fits, else by the overflow policy. `BitVec.ofInt` reduces modulo
2^64 into the int64 range, which is the policy wrap, and leaves a number that fits as it is. -/
def toI64 (policy : OverflowPolicy) (v : Int) : Except FaultInfo Word :=
  if fitsI64 v then .ok (BitVec.ofInt 64 v)
  else
    match policy with
    | .fault => .error { kind := .arithmeticOverflow }
    | .wrap => .ok (BitVec.ofInt 64 v)

/-! ### The instruction pointer (R65) and the result of the step (R55) -/

/-- `ip <- next` with `next = ip + 1 + n`, and the result `Continue`. -/
def State.advance (s : State) (n : Nat) : State :=
  { s with ip := BitVec.ofInt 64 (s.ip.toInt + 1 + n), lastResult := some .continued }

/-- `ip <- target`, unchecked (R73), and the result `Continue`. -/
def State.jump (s : State) (target : Word) : State :=
  { s with ip := target, lastResult := some .continued }

/-- `s` with the result `r` of its step, and no other change. -/
def State.report (s : State) (r : StepResult) : State := { s with lastResult := some r }

/-! ### Faults -/

/-- The numeric codes of R93. -/
def FaultKind.code : FaultKind → Nat
  | .outOfBounds => 1
  | .illegalOpcode => 2
  | .illegalWriteMode => 3
  | .illegalParameterMode => 4
  | .arithmeticOverflow => 5

/-- The fault record of R94 for a fault raised by the step that starts at `s`. -/
def State.faultRecord (s : State) (info : FaultInfo) : FaultRecord where
  kind := info.kind
  ip := s.ip
  word := s.cell? s.ip.toInt
  operand := info.operand
  raw := info.raw
  addr := info.addr
  rb := s.rb

/-- TAKING A FAULT (R95, R96): the latch is set and the step's result is the fault. Nothing else changes;
no handler, no vector, no saved state. R97: there is no return from it. -/
def State.takeFault (s : State) (info : FaultInfo) : State :=
  { s with status := .faulted (s.faultRecord info), lastResult := some (.fault (s.faultRecord info)) }

/-- The end of a meaning: its next state, or the fault it raises, taken in the state the step started in,
so that a faulting step leaves no partial effect (R66). -/
def State.finish (s : State) (r : Except FaultInfo State) : Host.Outcome State Fault Refusal :=
  match r with
  | .ok t => .next t
  | .error info => .next (s.takeFault info)

end Sys2Proof.Machine
end

