-- ==== Sys2Proof/Syntax.lean ====
section
/-! DEFINITION. The ten instructions with their operands as data (spec 30_encoding.md R39 to R44). -/

namespace Sys2Proof

/-- The three parameter modes (R42). -/
inductive Mode where
  /-- digit 0: the raw operand is an address -/
  | position
  /-- digit 1: the raw operand is the value -/
  | immediate
  /-- digit 2: the raw operand plus `rb` is an address -/
  | relative
deriving DecidableEq, Repr

/-- The two operand roles of R43: R and W. -/
inductive Role where
  | read
  | write
deriving DecidableEq, Repr

/-- An operand: its mode digit and its raw operand cell `p_k` (R39, R42). -/
structure Operand where
  mode : Mode
  raw : Word
deriving DecidableEq, Repr

/-- The ten instruction codes (R43), under the spec's mnemonics. `in` is a word of Lean, so it is `inp`. -/
inductive Code where
  | add | mul | inp | out | jt | jf | lt | eq | arb | hlt
deriving DecidableEq, Repr

/-- The instructions (R43): one constructor per row of the opcode table, the operands in operand order. -/
inductive Instr where
  /-- code 1, R69: `d` := `a` + `b` -/
  | add (a b d : Operand)
  /-- code 2, R70: `d` := `a` * `b` -/
  | mul (a b d : Operand)
  /-- code 3, mnemonic `in`, R71: `d` := the pending input -/
  | inp (d : Operand)
  /-- code 4, R72: output `a` -/
  | out (a : Operand)
  /-- code 5, R74: jump to `target` if `cond` is not 0 -/
  | jt (cond target : Operand)
  /-- code 6, R75: jump to `target` if `cond` is 0 -/
  | jf (cond target : Operand)
  /-- code 7, R77: `d` := 1 if `a` < `b`, else 0 -/
  | lt (a b d : Operand)
  /-- code 8, R78: `d` := 1 if `a` = `b`, else 0 -/
  | eq (a b d : Operand)
  /-- code 9, R79: `rb` := `rb` + `a` -/
  | arb (a : Operand)
  /-- code 99, R80: halt -/
  | hlt
deriving DecidableEq, Repr

/-- The code of an instruction. -/
def Instr.code : Instr → Code
  | .add _ _ _ => .add
  | .mul _ _ _ => .mul
  | .inp _ => .inp
  | .out _ => .out
  | .jt _ _ => .jt
  | .jf _ _ => .jf
  | .lt _ _ _ => .lt
  | .eq _ _ _ => .eq
  | .arb _ => .arb
  | .hlt => .hlt

/-- The operands of an instruction, in operand order. -/
def Instr.operands : Instr → List Operand
  | .add a b d => [a, b, d]
  | .mul a b d => [a, b, d]
  | .inp d => [d]
  | .out a => [a]
  | .jt cond target => [cond, target]
  | .jf cond target => [cond, target]
  | .lt a b d => [a, b, d]
  | .eq a b d => [a, b, d]
  | .arb a => [a]
  | .hlt => []

end Sys2Proof
end

