-- ==== Sys2Proof/WellFormed.lean ====
section
/-! DEFINITION. Which instructions have an encoding: a write operand is never immediate (spec 30_encoding.md R44). -/

namespace Sys2Proof

/-- The modes a write operand may have: position and relative (R44). -/
def Operand.writable (o : Operand) : Bool :=
  match o.mode with
  | .position => true
  | .immediate => false
  | .relative => true

/-- R44: every mode is legal on a read operand, and mode 1 is illegal on a write operand. -/
def Instr.wf : Instr → Bool
  | .add _ _ d => d.writable
  | .mul _ _ d => d.writable
  | .inp d => d.writable
  | .out _ => true
  | .jt _ _ => true
  | .jf _ _ => true
  | .lt _ _ d => d.writable
  | .eq _ _ d => d.writable
  | .arb _ => true
  | .hlt => true

end Sys2Proof
end

