-- ==== Sys2Proof/Machine/Operands.lean ====
section
/-! DEFINITION. The operand resolver (spec 40_dispatch.md R59 to R63) and the operand shapes of the formats
RRW, RR, W and R (30_encoding.md R39). -/

namespace Sys2Proof.Machine

/-- `relAddr(p) = rb + p`, exact and never wrapped (R63). -/
def State.relAddr (s : State) (p : Word) : Int := s.rb.toInt + p.toInt

/-- The bounds check of R61 and R62 on the address `addr` of operand `k` with raw operand `raw`. -/
def State.checkAddr (s : State) (k : Nat) (raw : Word) (addr : Int) : Except FaultInfo Nat :=
  if s.inBounds addr then .ok addr.toNat
  else .error { kind := .outOfBounds, operand := some k, raw := some raw, addr := some addr }

/-- `resolveRead(k)` (R61). -/
def State.readOperand (s : State) (k : Nat) (o : Operand) : Except FaultInfo Word :=
  match o.mode with
  | .immediate => .ok o.raw
  | .position => (s.checkAddr k o.raw o.raw.toInt).map s.mem.read
  | .relative => (s.checkAddr k o.raw (s.relAddr o.raw)).map s.mem.read

/-- `resolveWrite(k)` (R62): the destination's address. Immediate mode is IllegalWriteMode (R59). -/
def State.writeOperand (s : State) (k : Nat) (o : Operand) : Except FaultInfo Nat :=
  match o.mode with
  | .immediate => .error { kind := .illegalWriteMode, operand := some k }
  | .position => s.checkAddr k o.raw o.raw.toInt
  | .relative => s.checkAddr k o.raw (s.relAddr o.raw)

/-- The role check of R59 on a write operand, which comes before any operand is resolved. -/
def checkWriteMode (k : Nat) (d : Operand) : Except FaultInfo Unit :=
  if d.writable then .ok () else .error { kind := .illegalWriteMode, operand := some k }

/-- The fault that resolving one operand by its role raises, if any (R60 step 2). -/
def State.operandFault? (s : State) (k : Nat) (role : Role) (o : Operand) : Option FaultInfo :=
  match role with
  | .read => match s.readOperand k o with | .ok _ => none | .error e => some e
  | .write => match s.writeOperand k o with | .ok _ => none | .error e => some e

/-- Format RRW: two read operands, then the destination, resolved in that order (R60). `body` gets the
values and the destination's address. -/
def State.withRRW (s : State) (a b d : Operand)
    (body : Word → Word → Nat → Except FaultInfo State) : Host.Outcome State Fault Refusal :=
  s.finish do
    checkWriteMode 2 d
    let v0 ← s.readOperand 0 a
    let v1 ← s.readOperand 1 b
    let e ← s.writeOperand 2 d
    body v0 v1 e

/-- Format RR: two read operands. -/
def State.withRR (s : State) (a b : Operand)
    (body : Word → Word → Except FaultInfo State) : Host.Outcome State Fault Refusal :=
  s.finish do
    let v0 ← s.readOperand 0 a
    let v1 ← s.readOperand 1 b
    body v0 v1

/-- Format W: one destination. -/
def State.withW (s : State) (d : Operand)
    (body : Nat → Except FaultInfo State) : Host.Outcome State Fault Refusal :=
  s.finish do
    checkWriteMode 0 d
    let e ← s.writeOperand 0 d
    body e

/-- Format R: one read operand. -/
def State.withR (s : State) (a : Operand)
    (body : Word → Except FaultInfo State) : Host.Outcome State Fault Refusal :=
  s.finish do
    let v0 ← s.readOperand 0 a
    body v0

end Sys2Proof.Machine
end

