-- ==== Sys2Proof/Machine/Arithmetic.lean ====
section
/-! DEFINITION. add and mul (spec 41_arithmetic.md R68 to R70). -/

namespace Sys2Proof.Machine

/-- R69: `let r = toI64(v_0 + v_1); mem[d] <- r; ip <- next`. -/
def execAdd (a b d : Operand) (s : State) : Host.Outcome State Fault Refusal :=
  s.withRRW a b d fun v0 v1 e => do
    let r ← toI64 s.config.overflowPolicy (v0.toInt + v1.toInt)
    .ok ((s.store e r).advance 3)

/-- R70: `let r = toI64(v_0 * v_1); mem[d] <- r; ip <- next`. -/
def execMul (a b d : Operand) (s : State) : Host.Outcome State Fault Refusal :=
  s.withRRW a b d fun v0 v1 e => do
    let r ← toI64 s.config.overflowPolicy (v0.toInt * v1.toInt)
    .ok ((s.store e r).advance 3)

end Sys2Proof.Machine
end

