-- ==== Sys2Proof/Machine/Flags.lean ====
section
/-! DEFINITION. The machine has no condition codes and no flags (spec 10_state.md R20). What other machines
put in flags is here a value or a test: the 0 or 1 a comparison writes (44_compare.md R76) and the condition a
jump tests (43_jumps.md R74, R75). -/

namespace Sys2Proof.Machine

/-- 1 for true and 0 for false (R76). -/
def truthWord (b : Bool) : Word := if b then 1 else 0

/-- The signed comparison of R77. -/
def lessThan (x y : Word) : Bool := decide (x.toInt < y.toInt)

/-- The comparison of R78, on the whole int64. -/
def equalTo (x y : Word) : Bool := decide (x.toInt = y.toInt)

/-- The condition of R74: any value but 0 is true. R75 jumps when it is false. -/
def conditionTrue (x : Word) : Bool := decide (x.toInt ≠ 0)

end Sys2Proof.Machine
end

