-- ==== Sys2Proof/Machine/Compare.lean ====
section
/-! DEFINITION. lt and eq (spec 44_compare.md R76 to R78). -/

namespace Sys2Proof.Machine

/-- R77: `mem[d] <- (v_0 < v_1) ? 1 : 0; ip <- next`. -/
def execLt (a b d : Operand) (s : State) : Host.Outcome State Fault Refusal :=
  s.withRRW a b d fun v0 v1 e => .ok ((s.store e (truthWord (lessThan v0 v1))).advance 3)

/-- R78: `mem[d] <- (v_0 = v_1) ? 1 : 0; ip <- next`. -/
def execEq (a b d : Operand) (s : State) : Host.Outcome State Fault Refusal :=
  s.withRRW a b d fun v0 v1 e => .ok ((s.store e (truthWord (equalTo v0 v1))).advance 3)

end Sys2Proof.Machine
end

