-- ==== Sys2Proof/Machine/Halt.lean ====
section
/-! DEFINITION. hlt, and the step of a machine that has stopped (spec 46_halt.md R80, 40_dispatch.md R56). -/

namespace Sys2Proof.Machine

/-- R80: `status <- Halted`; `ip` stays at the halt cell. -/
def execHlt (s : State) : Host.Outcome State Fault Refusal :=
  .next ({ s with status := .halted }.report .halted)

/-- R56: a halted machine returns Halted and changes nothing. -/
def haltedStep (s : State) : Host.Outcome State Fault Refusal := .next (s.report .halted)

/-- R56: a faulted machine returns the same fault record and changes nothing. -/
def faultedStep (f : FaultRecord) (s : State) : Host.Outcome State Fault Refusal :=
  .next (s.report (.fault f))

end Sys2Proof.Machine
end

