-- ==== Sys2Proof/Machine/InputOutput.lean ====
section
/-! DEFINITION. in and out (spec 42_io.md R71, R72). -/

namespace Sys2Proof.Machine

/-- R71: with an input pending, write it, clear the slot and advance. With none, the result is NeedsInput
and the state is unchanged. The destination is resolved first, so its faults come before NeedsInput (D9). -/
def execIn (d : Operand) (s : State) : Host.Outcome State Fault Refusal :=
  s.withW d fun e =>
    match s.pending with
    | none => .ok (s.report .needsInput)
    | some v => .ok ({ s.store e v with pending := none }.advance 1)

/-- R72: advance, then emit `v_0`. -/
def execOut (a : Operand) (s : State) : Host.Outcome State Fault Refusal :=
  s.withR a fun v0 => .ok ((s.advance 1).report (.output v0))

end Sys2Proof.Machine
end

