-- ==== Sys2Proof/Machine/Jumps.lean ====
section
/-! DEFINITION. jt and jf (spec 43_jumps.md R73 to R75). -/

namespace Sys2Proof.Machine

/-- R74: `if v_0 ≠ 0: ip <- v_1 else: ip <- next`. The target is not checked here (R73). -/
def execJt (cond target : Operand) (s : State) : Host.Outcome State Fault Refusal :=
  s.withRR cond target fun v0 v1 => .ok (if conditionTrue v0 then s.jump v1 else s.advance 2)

/-- R75: `if v_0 = 0: ip <- v_1 else: ip <- next`. -/
def execJf (cond target : Operand) (s : State) : Host.Outcome State Fault Refusal :=
  s.withRR cond target fun v0 v1 => .ok (if conditionTrue v0 then s.advance 2 else s.jump v1)

end Sys2Proof.Machine
end

