-- ==== Sys2Proof/Machine/RelativeBase.lean ====
section
/-! DEFINITION. arb (spec 45_relative_base.md R79). -/

namespace Sys2Proof.Machine

/-- R79: `let r = toI64(rb + v_0); rb <- r; ip <- next`. The operand is read at the old `rb`. -/
def execArb (a : Operand) (s : State) : Host.Outcome State Fault Refusal :=
  s.withR a fun v0 => do
    let r ← toI64 s.config.overflowPolicy (s.rb.toInt + v0.toInt)
    .ok ({ s with rb := r }.advance 1)

end Sys2Proof.Machine
end

