-- ==== Sys2Proof/Decode.lean ====
section
/-! DEFINITION. The decoder, total on any list of cells and rejecting by name, and the encoder
(spec 30_encoding.md R39 to R54, 40_dispatch.md R58 and R59). -/

namespace Sys2Proof

/-! ### The code table (R43) -/

/-- The `code` column of R43. -/
def Code.number : Code → Nat
  | .add => 1
  | .mul => 2
  | .inp => 3
  | .out => 4
  | .jt => 5
  | .jf => 6
  | .lt => 7
  | .eq => 8
  | .arb => 9
  | .hlt => 99

/-- The `operands` column of R43: the operand roles in operand order. -/
def Code.roles : Code → List Role
  | .add => [.read, .read, .write]
  | .mul => [.read, .read, .write]
  | .inp => [.write]
  | .out => [.read]
  | .jt => [.read, .read]
  | .jf => [.read, .read]
  | .lt => [.read, .read, .write]
  | .eq => [.read, .read, .write]
  | .arb => [.read]
  | .hlt => []

/-- The operand count `n` of a code. -/
def Code.nops (c : Code) : Nat := c.roles.length

/-- The length of an instruction in cells, from its code alone (R50). -/
def Code.length (c : Code) : Nat := 1 + c.nops

/-- The rows of the table, in its order. -/
def Code.all : List Code := [.add, .mul, .inp, .out, .jt, .jf, .lt, .eq, .arb, .hlt]

/-- The row whose `match` is `k` (R52), if there is one. -/
def Code.ofNumber? (k : Nat) : Option Code := Code.all.find? fun c => c.number == k

/-! ### Decimal digits (R10, R42) -/

/-- `dig(w, k)`: the decimal digit of `w` at position `k`, from the least significant (R10). -/
def dig (w k : Nat) : Nat := w / 10 ^ k % 10

/-- The mode digits of R42. -/
def Mode.digit : Mode → Nat
  | .position => 0
  | .immediate => 1
  | .relative => 2

/-- The mode of a digit. The digits 3 to 9 name no mode (R46). -/
def Mode.ofDigit? : Nat → Option Mode
  | 0 => some .position
  | 1 => some .immediate
  | 2 => some .relative
  | _ => none

/-! ### Decoding -/

/-- Why a list of cells is no instruction. -/
inductive Reject where
  /-- there is no opcode word (R57) -/
  | noWord
  /-- R58: a negative word, or a code outside the table -/
  | illegalOpcode
  /-- R59: excess digits (no operand), or a mode digit from 3 to 9 (that operand) -/
  | illegalParameterMode (operand : Option Nat)
  /-- R59: immediate mode on the write operand `operand` -/
  | illegalWriteMode (operand : Nat)
  /-- the opcode word is legal and an operand cell is missing (R60): the operands whose cells are there -/
  | truncated (present : List (Role × Operand))
deriving DecidableEq, Repr

/-- The loop of R59 over the operands from `k` on: each mode digit is checked to name a mode,
then against the operand's role. -/
def decodeModes (w : Nat) : List Role → Nat → Except Reject (List Mode)
  | [], _ => .ok []
  | role :: roles, k =>
    match Mode.ofDigit? (dig w (k + 2)) with
    | none => .error (.illegalParameterMode (some k))
    | some m =>
      if role = .write ∧ m = .immediate then .error (.illegalWriteMode k)
      else
        match decodeModes w roles (k + 1) with
        | .ok ms => .ok (m :: ms)
        | .error r => .error r

/-- The opcode word alone: R58, then R59. -/
def decodeOpcode (strict : Bool) (w : Word) : Except Reject (Code × List Mode) :=
  if w.toInt < 0 then .error .illegalOpcode
  else
    match Code.ofNumber? (w.toNat % 100) with
    | none => .error .illegalOpcode
    | some c =>
      if strict = true ∧ w.toNat / 10 ^ (2 + c.nops) ≠ 0 then .error (.illegalParameterMode none)
      else
        match decodeModes w.toNat c.roles 0 with
        | .ok ms => .ok (c, ms)
        | .error r => .error r

/-- The instruction of a code with its operands, if they are as many as the code has. -/
def Code.build (c : Code) (ops : List Operand) : Option Instr :=
  match c, ops with
  | .add, [a, b, d] => some (.add a b d)
  | .mul, [a, b, d] => some (.mul a b d)
  | .inp, [d] => some (.inp d)
  | .out, [a] => some (.out a)
  | .jt, [cond, target] => some (.jt cond target)
  | .jf, [cond, target] => some (.jf cond target)
  | .lt, [a, b, d] => some (.lt a b d)
  | .eq, [a, b, d] => some (.eq a b d)
  | .arb, [a] => some (.arb a)
  | .hlt, [] => some .hlt
  | _, _ => none

/-- The instruction at the head of a list of cells (R39): the opcode word, then one cell per operand.
Cells after the instruction are ignored. -/
def decode (strict : Bool) (cells : List Word) : Except Reject Instr :=
  match cells with
  | [] => .error .noWord
  | w :: rest =>
    match decodeOpcode strict w with
    | .error r => .error r
    | .ok (c, modes) =>
      match c.build (List.zipWith Operand.mk modes rest) with
      | some i => .ok i
      | none => .error (.truncated (c.roles.zip (List.zipWith Operand.mk modes rest)))

/-! ### Encoding (R51) -/

/-- The mode digit `m_k` of an operand list, 0 for `k >= n` (R51). -/
def modeDigit (ops : List Operand) (k : Nat) : Nat :=
  match ops[k]? with
  | some o => o.mode.digit
  | none => 0

/-- The opcode word as a number: `c + 100*m_0 + 1000*m_1 + 10000*m_2` (R51). -/
def Instr.opcodeNumber (i : Instr) : Nat :=
  i.code.number + 100 * modeDigit i.operands 0 + 1000 * modeDigit i.operands 1
    + 10000 * modeDigit i.operands 2

/-- The opcode word of an instruction. -/
def Instr.opcodeWord (i : Instr) : Word := BitVec.ofNat 64 i.opcodeNumber

/-- The cells of an instruction: its opcode word, then its raw operands (R39). -/
def encode (i : Instr) : List Word := i.opcodeWord :: i.operands.map Operand.raw

/-- R53: what an assembler gives for one instruction. An immediate write operand has no encoding. -/
def assemble (i : Instr) : Option (List Word) := if i.wf then some (encode i) else none

/-- R54: `jmp t` is `jt #1, t`. -/
def pseudoJmp (t : Operand) : Instr := .jt ⟨.immediate, 1⟩ t

/-- R54: `mov s, d` is `add s, #0, d`. -/
def pseudoMov (s d : Operand) : Instr := .add s ⟨.immediate, 0⟩ d

/-! ### The host's numbering of an instruction's bits -/

/-- The longest instruction, in cells (R39). -/
def longestInstr : Nat := 4

/-- The cells whose bits are the `nbits` low bits of `w`, the first cell the lowest, all bits above
`nbits` 0 (log entry 16). -/
def tableCells (nbits w : Nat) : List Word :=
  (List.range longestInstr).map fun k => BitVec.ofNat 64 (w % 2 ^ nbits / 2 ^ (64 * k))

/-- The instruction the decoder reads from the cells whose bits are `w`, under the default parameters. -/
def decodeTableWord (nbits w : Nat) : Option Instr :=
  match decode Config.default.strictModeDigits (tableCells nbits w) with
  | .ok i => some i
  | .error _ => none

end Sys2Proof
end

