-- ==== Sys2Proof/Machine/Fetch.lean ====
section
/-! DEFINITION. Fetching the instruction at `ip` and the faults of fetch and decode
(spec 40_dispatch.md R57 to R60, R67). -/

namespace Sys2Proof.Machine

/-- Up to `n` cells from address `a` on, as far as they are in bounds. -/
def State.cellsFrom (s : State) (a : Int) : Nat → List Word
  | 0 => []
  | n + 1 =>
    match s.cell? a with
    | none => []
    | some w => w :: s.cellsFrom (a + 1) n

/-- The cells from `ip` on that an instruction may take (R39): at most four, as far as memory reaches. -/
def State.fetchCells (s : State) : List Word := s.cellsFrom s.ip.toInt longestInstr

/-- The fault of an instruction whose operand cells run off the end of memory (R60): the operands whose
cells are there are resolved in order, and the first that faults gives the fault; else the cell of the next
operand is out of bounds. -/
def State.truncatedFault (s : State) (k : Nat) : List (Role × Operand) → FaultInfo
  | [] => { kind := .outOfBounds, operand := some k, addr := some (s.ip.toInt + 1 + k) }
  | (role, o) :: rest =>
    match s.operandFault? k role o with
    | some e => e
    | none => s.truncatedFault (k + 1) rest

/-- The fault of each reason the decoder rejects for (R57 to R60). -/
def State.rejectFault (s : State) : Reject → FaultInfo
  | .noWord => { kind := .outOfBounds, addr := some s.ip.toInt }
  | .illegalOpcode => { kind := .illegalOpcode }
  | .illegalParameterMode k => { kind := .illegalParameterMode, operand := k }
  | .illegalWriteMode k => { kind := .illegalWriteMode, operand := some k }
  | .truncated present => s.truncatedFault 0 present

/-- The instruction at `ip`, or the fault of fetching or decoding it. -/
def State.fetch (s : State) : Except FaultInfo Instr :=
  match decode s.config.strictModeDigits s.fetchCells with
  | .ok i => .ok i
  | .error r => .error (s.rejectFault r)

/-- Whether a longest instruction at `ip` lies in memory. -/
abbrev State.roomAtIp (s : State) : Prop := 0 ≤ s.ip.toInt ∧ s.ip.toInt + longestInstr ≤ s.memLen.val

/-- `s` made ready to fetch: status Running, and where a longest instruction at `ip` would leave memory,
`ip` at the entry point 0 and memory at least that long (log entry 7). -/
def State.readyToFetch (s : State) : State :=
  if s.roomAtIp then { s with status := .running }
  else
    { s with
      status := .running
      ip := 0
      memLen := if longestInstr ≤ s.memLen.val then s.memLen else ⟨longestInstr, by decide⟩ }

/-- `s` ready to fetch, with `cells` stored from `ip` on. -/
def State.placeCells (s : State) (cells : List Word) : State :=
  { s.readyToFetch with mem := s.readyToFetch.mem.writeCells s.readyToFetch.ip.toNat cells }

end Sys2Proof.Machine
end

