-- ==== Sys2Proof/Machine/Step.lean ====
section
/-! DEFINITION. One step of the machine (spec 40_dispatch.md R55 to R67). -/

namespace Sys2Proof.Machine

/-- The status gate (R56), then fetch, decode and execute. The answer is always a next state, and the
step's result stands in its `lastResult` (R55; log entries 1 and 2). -/
def step (s : State) : Host.Outcome State Fault Refusal :=
  match s.status with
  | .halted => haltedStep s
  | .faulted f => faultedStep f s
  | .running =>
    match s.fetch with
    | .ok i => exec i s
    | .error info => .next (s.takeFault info)

/-- `s` with the instruction whose bits are `w` stored where the next step fetches it (log entry 7). -/
def State.withFetchWord (s : State) (nbits w : Nat) : State := s.placeCells (tableCells nbits w)

end Sys2Proof.Machine
end

