-- ==== Sys2Proof/Machine/Ports.lean ====
section
/-! DEFINITION. The ports of the block and the run_to_completion driver (spec 47_host_interface.md R81 to R92,
70_reset_and_hazards.md R107 to R109). The host works them between steps. -/

namespace Sys2Proof.Machine

/-! ### Construct -/

/-- `construct(B)` (R82): the machine over the buffer `B`, exactly as given. The caller owes a buffer of at
most 2^63 - 1 cells, which is `h` (D23); the parameters are arguments of the model (R7). -/
def construct (config : Config) (B : List Word) (h : B.length < 2 ^ 63) : State where
  mem := Memory.ofCells 0 B
  memLen := ⟨B.length, h⟩
  ip := 0
  rb := 0
  pending := none
  status := .running
  config := config
  lastResult := none

/-- The buffer of R109: the program, then zero cells up to `len` cells. -/
def bootBuffer (program : List Word) (len : Nat) : List Word :=
  program ++ List.replicate (len - program.length) 0

/-- The machine over `bootBuffer program len`, without listing the zero cells. The host owes a program of at
most `len` cells (R109 step 2), which is `h`. The spec does not say what a longer one does, and by DESIGN CHOICE
(log entry 13) `boot` makes no machine of it. -/
def boot (config : Config) (program : List Word) (len : MemLen) (_h : program.length ≤ len.val) : State :=
  { construct config [] (by decide) with
    mem := Memory.ofCells 0 program
    memLen := len }

/-! ### Provide input and snapshot -/

/-- `provide_input(v)` (R83): accepted in every status; an unconsumed value is lost. -/
def provideInput (v : Word) (s : State) : State := { s with pending := some v }

/-- `snapshot()` (R89): the `MEM_LEN` cells of memory, read only. -/
def snapshot (s : State) : List Word := (List.range s.memLen.val).map s.mem.read

/-! ### Advance -/

/-- The events of R84. -/
inductive Event where
  | output (v : Word)
  | needsInput
  | halted
  | fault (f : FaultRecord)
deriving DecidableEq, Repr

/-- The event of a step's result: any result but Continue (R85). -/
def StepResult.event? : StepResult → Option Event
  | .continued => none
  | .output v => some (.output v)
  | .needsInput => some .needsInput
  | .halted => some .halted
  | .fault f => some (.fault f)

/-- The event at which a state stands after its latest step, if that step ended with one. -/
def State.event? (s : State) : Option Event := s.lastResult.bind StepResult.event?

/-- `advance()` (R85) run for at most `fuel` steps: the event it returns and the state it leaves. `none` says
that no event came within the fuel; it is no result of `advance` (R88). -/
def advanceWithin : Nat → State → Option (Event × State)
  | 0, _ => none
  | fuel + 1, s =>
    match step s with
    | .next t =>
      match t.event? with
      | some e => some (e, t)
      | none => advanceWithin fuel t
    | .fault _ => none
    | .refused _ => none

/-- `advance()` from `s` returns `e` and leaves `t` (R85): the loop of steps as a relation, without fuel. -/
inductive Advances : State → Event → State → Prop where
  | event {s t : State} {e : Event} : step s = .next t → t.event? = some e → Advances s e t
  | onward {s t u : State} {e : Event} :
      step s = .next t → t.event? = none → Advances t e u → Advances s e u

/-- `advance()` from `s` does not return (R88): no number of steps brings an event. -/
def Diverges (s : State) : Prop := ∀ fuel, advanceWithin fuel s = none

/-! ### The run_to_completion driver (R90, R91) -/

/-- The ends of the driver. InputExhausted is code 6 of R93, a failure of the driver alone. -/
inductive DriverEnd where
  | returned (outs : List Word)
  | inputExhausted (outs : List Word)
  | failed (f : FaultRecord) (outs : List Word)
deriving DecidableEq, Repr

/-- The numeric code of a driver's failure (R93), none where it returned. -/
def DriverEnd.code? : DriverEnd → Option Nat
  | .returned _ => none
  | .inputExhausted _ => some 6
  | .failed f _ => some f.kind.code

/-- The driver's loop of R90 from `s` with the inputs `q` left and the outputs `outs` so far. -/
inductive Drives : State → List Word → List Word → DriverEnd → State → Prop where
  | output {s t u : State} {q outs : List Word} {v : Word} {r : DriverEnd} :
      Advances s (.output v) t → Drives t q (outs ++ [v]) r u → Drives s q outs r u
  | supply {s t u : State} {q outs : List Word} {v : Word} {r : DriverEnd} :
      Advances s .needsInput t → Drives (provideInput v t) q outs r u → Drives s (v :: q) outs r u
  | exhausted {s t : State} {outs : List Word} :
      Advances s .needsInput t → Drives s [] outs (.inputExhausted outs) t
  | halted {s t : State} {q outs : List Word} :
      Advances s .halted t → Drives s q outs (.returned outs) t
  | fault {s t : State} {q outs : List Word} {f : FaultRecord} :
      Advances s (.fault f) t → Drives s q outs (.failed f outs) t

/-- `run_to_completion(inputs)` (R90) ends with `r` and leaves `t`. No input is the empty list (D19). -/
def RunsToCompletion (s : State) (inputs : List Word) (r : DriverEnd) (t : State) : Prop :=
  Drives s inputs [] r t

/-- The driver's loop with at most `rounds` calls of advance, each of at most `fuel` steps. `none` is no
result of the driver. -/
def driveWithin (fuel : Nat) : Nat → State → List Word → List Word → Option (DriverEnd × State)
  | 0, _, _, _ => none
  | rounds + 1, s, q, outs =>
    match advanceWithin fuel s with
    | none => none
    | some (.output v, t) => driveWithin fuel rounds t q (outs ++ [v])
    | some (.needsInput, t) =>
      match q with
      | [] => some (.inputExhausted outs, t)
      | v :: q' => driveWithin fuel rounds (provideInput v t) q' outs
    | some (.halted, t) => some (.returned outs, t)
    | some (.fault f, t) => some (.failed f outs, t)

/-! ### Runs and their ends (R92) -/

/-- A run from `s` by port operations: the outputs so far, the latest event, and the state reached.
`snapshot` changes nothing, so it adds no case. -/
inductive Run (s : State) : List Word → Option Event → State → Prop where
  | start : Run s [] none s
  | provideInput {outs : List Word} {e : Option Event} {t : State} (v : Word) :
      Run s outs e t → Run s outs e (provideInput v t)
  | output {outs : List Word} {e : Option Event} {t u : State} {v : Word} :
      Run s outs e t → Advances t (.output v) u → Run s (outs ++ [v]) (some (.output v)) u
  | needsInput {outs : List Word} {e : Option Event} {t u : State} :
      Run s outs e t → Advances t .needsInput u → Run s outs (some .needsInput) u
  | halted {outs : List Word} {e : Option Event} {t u : State} :
      Run s outs e t → Advances t .halted u → Run s outs (some .halted) u
  | fault {outs : List Word} {e : Option Event} {t u : State} {f : FaultRecord} :
      Run s outs e t → Advances t (.fault f) u → Run s outs (some (.fault f)) u

/-- The four ends of a run (R92). What the host observes of a halted and of a faulted run is R92's. DESIGN CHOICE
(log entry 20): for suspended and diverged, where R92 states no observation, it is the outputs alone. -/
inductive RunEnd where
  | halted (outs : List Word) (memory : List Word)
  | faulted (outs : List Word) (f : FaultRecord)
  | suspended (outs : List Word)
  | diverged (outs : List Word)
deriving DecidableEq, Repr

/-- `RunEnds s r`: some run from `s` has the end `r`. -/
inductive RunEnds (s : State) : RunEnd → Prop where
  | halted {outs : List Word} {t : State} :
      Run s outs (some .halted) t → RunEnds s (.halted outs (snapshot t))
  | faulted {outs : List Word} {t : State} {f : FaultRecord} :
      Run s outs (some (.fault f)) t → RunEnds s (.faulted outs f)
  | suspended {outs : List Word} {t : State} :
      Run s outs (some .needsInput) t → RunEnds s (.suspended outs)
  | diverged {outs : List Word} {e : Option Event} {t : State} :
      Run s outs e t → Diverges t → RunEnds s (.diverged outs)

/-! ### Several instances (R38, R104) -/

/-- Instances side by side, each with a state of its own. The scheduler that picks one is the host's. -/
abbrev Instances := List State

/-- `provide_input(v)` on instance `k`. -/
def Instances.provideInputAt (is : Instances) (k : Nat) (v : Word) : Instances :=
  is.modify k (provideInput v)

/-- `advance()` on instance `k` returns `e` and leaves the instances `js`. -/
def Instances.AdvancesAt (is : Instances) (k : Nat) (e : Event) (js : Instances) : Prop :=
  ∃ s t, is[k]? = some s ∧ Advances s e t ∧ js = is.set k t

end Sys2Proof.Machine
end

