-- ==== Sys2Proof/Safety.lean ====
section
/-! DEFINITION. The words the claims are stated in: the state invariant, how an operand reads and where it
writes, and safe runs. -/

namespace Sys2Proof.Machine

/-- Memory is in canonical form and lists no cell outside `MEM_LEN` (20_memory.md R23, R25; log entry 5). -/
def State.memOk (s : State) : Prop := s.mem.wf ∧ ∀ p ∈ s.mem, p.1 < s.memLen.val

/-- The latest result agrees with the status (40_dispatch.md R55): a fault in the latch is the one reported,
and nothing is reported halted or faulted that is not. -/
def State.resultOk (s : State) : Prop :=
  (s.lastResult = some .halted ↔ s.status = .halted) ∧
    ∀ f, s.lastResult = some (.fault f) ↔ s.status = .faulted f

/-- The fault record in the latch was made in this very state (60_exceptions.md R94, R95): faults are
precise, and nothing changes after one. -/
def State.latchOk (s : State) : Prop :=
  ∀ f, s.status = .faulted f →
    f.ip = s.ip ∧ f.rb = s.rb ∧ f.word = s.cell? s.ip.toInt ∧
      (f.kind = .outOfBounds ↔ f.addr.isSome) ∧
      (f.kind = .arithmeticOverflow → s.config.overflowPolicy = .fault)

/-- What every reachable state meets. -/
structure State.Inv (s : State) : Prop where
  memOk : s.memOk
  resultOk : s.resultOk
  latchOk : s.latchOk

/-- The cell at `addr` exists and holds `v`. -/
def State.CellIs (s : State) (addr : Int) (v : Word) : Prop :=
  0 ≤ addr ∧ addr < s.memLen.val ∧ s.mem.read addr.toNat = v

/-- R61 as a relation: the read operand `o` resolves to the value `v`. -/
def State.ReadsAs (s : State) (o : Operand) (v : Word) : Prop :=
  match o.mode with
  | .immediate => v = o.raw
  | .position => s.CellIs o.raw.toInt v
  | .relative => s.CellIs (s.rb.toInt + o.raw.toInt) v

/-- R62 as a relation: the write operand `o` resolves to the cell `d`. -/
def State.WritesTo (s : State) (o : Operand) (d : Nat) : Prop :=
  match o.mode with
  | .immediate => False
  | .position => 0 ≤ o.raw.toInt ∧ o.raw.toInt < s.memLen.val ∧ (d : Int) = o.raw.toInt
  | .relative =>
    0 ≤ s.rb.toInt + o.raw.toInt ∧ s.rb.toInt + o.raw.toInt < s.memLen.val ∧
      (d : Int) = s.rb.toInt + o.raw.toInt

/-- The legal opcode words of a code under strict mode digits: the table of 30_encoding.md R49. -/
def legalWords : Code → List Int
  | .add => [1, 101, 201, 1001, 1101, 1201, 2001, 2101, 2201] ++
      [20001, 20101, 20201, 21001, 21101, 21201, 22001, 22101, 22201]
  | .mul => [2, 102, 202, 1002, 1102, 1202, 2002, 2102, 2202] ++
      [20002, 20102, 20202, 21002, 21102, 21202, 22002, 22102, 22202]
  | .inp => [3, 203]
  | .out => [4, 104, 204]
  | .jt => [5, 105, 205, 1005, 1105, 1205, 2005, 2105, 2205]
  | .jf => [6, 106, 206, 1006, 1106, 1206, 2006, 2106, 2206]
  | .lt => [7, 107, 207, 1007, 1107, 1207, 2007, 2107, 2207] ++
      [20007, 20107, 20207, 21007, 21107, 21207, 22007, 22107, 22207]
  | .eq => [8, 108, 208, 1008, 1108, 1208, 2008, 2108, 2208] ++
      [20008, 20108, 20208, 21008, 21108, 21208, 22008, 22108, 22208]
  | .arb => [9, 109, 209]
  | .hlt => [99]

/-- The instruction that a step of `s` executes: the status is Running and the cells at `ip` decode to it. -/
def State.Executes (s : State) (i : Instr) : Prop :=
  s.status = .running ∧ decode s.config.strictModeDigits s.fetchCells = .ok i

/-- `k` steps from `s` lead to `t`. -/
inductive Steps : Nat → State → State → Prop where
  | refl {s : State} : Steps 0 s s
  | step {k : Nat} {s t u : State} : step s = .next t → Steps k t u → Steps (k + 1) s u

/-- A safe start: no run from it by port operations reaches a fault (47_host_interface.md R92, the end
"faulted"). -/
def Safe (s : State) : Prop := ∀ outs f, ¬ RunEnds s (.faulted outs f)

end Sys2Proof.Machine
end

