-- ==== Sys2Proof/Certificates/Slice0/Obligations.lean ====
section
/-! DEFINITION. The statements for the provers. Each docstring names the rule of the spec it rests on. -/

open Sys2Proof Sys2Proof.Machine

/-! ### Encoding -/

/-- R43, R50: code numbers, operand roles and lengths of the ten instructions. -/
def Obligations.CodeTableAsSpecified : Prop :=
  (Code.all.map fun c => (c, c.number, c.roles, c.length)) =
    [(.add, 1, [.read, .read, .write], 4), (.mul, 2, [.read, .read, .write], 4),
      (.inp, 3, [.write], 2), (.out, 4, [.read], 2), (.jt, 5, [.read, .read], 3),
      (.jf, 6, [.read, .read], 3), (.lt, 7, [.read, .read, .write], 4),
      (.eq, 8, [.read, .read, .write], 4), (.arb, 9, [.read], 2), (.hlt, 99, [], 1)]

/-- Words of the source's examples (R42, R51; 95_test_vectors.md), one for each family. -/
def Obligations.ExampleWordsDecode : Prop :=
  decode true [1, 0, 0, 0, 99] = .ok (.add ⟨.position, 0⟩ ⟨.position, 0⟩ ⟨.position, 0⟩) ∧
  decode true [1002, 4, 3, 4, 33] = .ok (.mul ⟨.position, 4⟩ ⟨.immediate, 3⟩ ⟨.position, 4⟩) ∧
  decode true [203, BitVec.ofInt 64 (-7)] = .ok (.inp ⟨.relative, BitVec.ofInt 64 (-7)⟩) ∧
  decode true [104, 1125899906842624, 99] = .ok (.out ⟨.immediate, 1125899906842624⟩) ∧
  decode true [1005, 20, 2] = .ok (.jt ⟨.position, 20⟩ ⟨.immediate, 2⟩) ∧
  decode true [1206, 0, 12] = .ok (.jf ⟨.relative, 0⟩ ⟨.immediate, 12⟩) ∧
  decode true [107, 8, 21, 20] = .ok (.lt ⟨.immediate, 8⟩ ⟨.position, 21⟩ ⟨.position, 20⟩) ∧
  decode true [1008, 21, 8, 20] = .ok (.eq ⟨.position, 21⟩ ⟨.immediate, 8⟩ ⟨.position, 20⟩) ∧
  decode true [109, 2000] = .ok (.arb ⟨.immediate, 2000⟩) ∧
  decode true [99] = .ok .hlt

/-- R54: the two pseudo-instructions spell the cells of the table, for every operand form. -/
def Obligations.PseudoInstructionsExpand : Prop :=
  (∀ x, assemble (pseudoJmp ⟨.immediate, x⟩) = some [1105, 1, x]) ∧
  (∀ a, assemble (pseudoJmp ⟨.position, a⟩) = some [105, 1, a]) ∧
  (∀ o, assemble (pseudoJmp ⟨.relative, o⟩) = some [2105, 1, o]) ∧
  ∀ src dst : Operand, dst.mode ≠ .immediate →
    assemble (pseudoMov src dst) =
      some [BitVec.ofNat 64 (1 + 100 * src.mode.digit + 1000 + 10000 * dst.mode.digit), src.raw, 0, dst.raw]

/-- R51: the opcode word of an instruction with an encoding is the number of the formula, it decodes to the
instruction's code and modes, and it is the only strict-mode word that does. -/
def Obligations.OpcodeWordIsTheUniqueStrictWord : Prop :=
  ∀ i : Instr, i.wf = true →
    i.opcodeWord.toInt = i.code.number + 100 * modeDigit i.operands 0 + 1000 * modeDigit i.operands 1
      + 10000 * modeDigit i.operands 2 ∧
    decodeOpcode true i.opcodeWord = .ok (i.code, i.operands.map Operand.mode) ∧
    ∀ w, decodeOpcode true w = .ok (i.code, i.operands.map Operand.mode) → w = i.opcodeWord

/-- R39, R40, R51: for EVERY instruction with an encoding, every raw operand, either value of the strict
parameter and whatever cells follow, decoding the encoded cells gives the instruction back. -/
def Obligations.DecodeInvertsEncode : Prop :=
  ∀ (i : Instr) (strict : Bool) (rest : List Word), i.wf = true → decode strict (encode i ++ rest) = .ok i

/-- R44, R48, R51: what strict decoding accepts is well formed, and its cells are exactly its encoding. -/
def Obligations.EncodeInvertsStrictDecode : Prop :=
  ∀ (i : Instr) (cells : List Word), decode true cells = .ok i →
    i.wf = true ∧ ∃ rest, cells = encode i ++ rest

/-- R49: the legal strict-mode words of each code are those of the table, 99 in all; without strict mode
digits a word is legal iff its digits below `10^(2+n)` are; any other word at `ip` faults when fetched. -/
def Obligations.LegalWordsAreTheTable : Prop :=
  (Code.all.flatMap legalWords).length = 99 ∧
  (∀ (w : Word) (c : Code), (∃ ms, decodeOpcode true w = .ok (c, ms)) ↔ w.toInt ∈ legalWords c) ∧
  (∀ (w : Word) (c : Code), (∃ ms, decodeOpcode false w = .ok (c, ms)) ↔
    0 ≤ w.toInt ∧ w.toInt % 100 = c.number ∧ w.toInt % 10 ^ (2 + c.nops) ∈ legalWords c) ∧
  ∀ (s : State) (w : Word), s.status = .running → s.config.strictModeDigits = true →
    s.cell? s.ip.toInt = some w → (∀ c, w.toInt ∉ legalWords c) →
    ∃ info, step s = .next (s.takeFault info)

/-! ### Fetch, decode and resolution -/

/-- R57: an `ip` outside memory is the fault OutOfBounds with that address, and no opcode word; inside, the
opcode word is the cell at `ip`. -/
def Obligations.FetchOutsideMemoryFaults : Prop :=
  ∀ s : State, s.status = .running →
    (¬ s.inBounds s.ip.toInt →
      step s = .next (s.takeFault { kind := .outOfBounds, addr := some s.ip.toInt })) ∧
    (s.inBounds s.ip.toInt → s.fetchCells.head? = some (s.mem.read s.ip.toInt.toNat))

/-- R39, R57, R60: the cells of an instruction are the cells of memory from `ip` on, and only those in
bounds. -/
def Obligations.FetchedCellsAreMemoryAtIp : Prop :=
  ∀ (s : State) (k : Nat) (w : Word), k < 4 →
    (s.fetchCells[k]? = some w ↔
      0 ≤ s.ip.toInt ∧ s.ip.toInt + k < s.memLen.val ∧ s.mem.read (s.ip.toInt + k).toNat = w)

/-- R58: a negative word, or one whose code is not in the table, is the fault IllegalOpcode; the decoder
rejects no other word as one, and takes the code and the operand count from `w mod 100`. -/
def Obligations.IllegalOpcodeExactly : Prop :=
  ∀ (s : State) (w : Word), s.status = .running → s.cell? s.ip.toInt = some w →
    ((w.toInt < 0 ∨ ∀ c : Code, w.toInt % 100 ≠ c.number) →
      step s = .next (s.takeFault { kind := .illegalOpcode })) ∧
    (∀ c : Code, 0 ≤ w.toInt → w.toInt % 100 = c.number →
      decodeOpcode s.config.strictModeDigits w ≠ .error .illegalOpcode ∧
      ∀ c' ms, decodeOpcode s.config.strictModeDigits w = .ok (c', ms) → c' = c ∧ ms.length = c.roles.length)

/-- R59: excess digits under strict mode digits first; then, operand by operand, a digit outside 0 to 2, then
immediate mode on a write operand. The first that fails is the fault, before any operand cell is fetched. -/
def Obligations.ModeDigitsValidatedInOrder : Prop :=
  ∀ (s : State) (w : Word) (c : Code), s.status = .running → s.cell? s.ip.toInt = some w →
    0 ≤ w.toInt → w.toInt % 100 = c.number →
    (s.config.strictModeDigits = true ∧ w.toNat / 10 ^ (2 + c.nops) ≠ 0 →
      step s = .next (s.takeFault { kind := .illegalParameterMode })) ∧
    (¬ (s.config.strictModeDigits = true ∧ w.toNat / 10 ^ (2 + c.nops) ≠ 0) →
      ∀ (k : Nat) (role : Role), c.roles[k]? = some role →
        (∀ j r, j < k → c.roles[j]? = some r →
          dig w.toNat (j + 2) < 3 ∧ ¬ (r = .write ∧ dig w.toNat (j + 2) = 1)) →
        (3 ≤ dig w.toNat (k + 2) →
          step s = .next (s.takeFault { kind := .illegalParameterMode, operand := some k })) ∧
        (role = .write → dig w.toNat (k + 2) = 1 →
          step s = .next (s.takeFault { kind := .illegalWriteMode, operand := some k })))

/-- R60, R67: operands are fetched and resolved one after the other, and the first failure is the fault: a
cell outside memory, or an operand that does not resolve. -/
def Obligations.OperandsFetchedAndResolvedInOrder : Prop :=
  ∀ (s : State) (w : Word) (c : Code) (ms : List Mode) (k : Nat), s.status = .running →
    s.cell? s.ip.toInt = some w → decodeOpcode s.config.strictModeDigits w = .ok (c, ms) → k < c.nops →
    (∀ j, j < k → ∃ p m role, s.cell? (s.ip.toInt + 1 + j) = some p ∧ ms[j]? = some m ∧
      c.roles[j]? = some role ∧ s.operandFault? j role ⟨m, p⟩ = none) →
    (s.cell? (s.ip.toInt + 1 + k) = none →
      step s = .next (s.takeFault
        { kind := .outOfBounds, operand := some k, addr := some (s.ip.toInt + 1 + k) })) ∧
    ∀ p m role e, s.cell? (s.ip.toInt + 1 + k) = some p → ms[k]? = some m → c.roles[k]? = some role →
      s.operandFault? k role ⟨m, p⟩ = some e → step s = .next (s.takeFault e)

/-- R61: the value of a read operand in each mode, and the fault of one that is out of bounds. -/
def Obligations.ReadOperandResolution : Prop :=
  ∀ (s : State) (k : Nat) (p : Word),
    s.readOperand k ⟨.immediate, p⟩ = .ok p ∧
    ∀ m addr, (m = .position ∧ addr = p.toInt ∨ m = .relative ∧ addr = s.rb.toInt + p.toInt) →
      (s.inBounds addr → s.readOperand k ⟨m, p⟩ = .ok (s.mem.read addr.toNat)) ∧
      (¬ s.inBounds addr → s.readOperand k ⟨m, p⟩ =
        .error { kind := .outOfBounds, operand := some k, raw := some p, addr := some addr })

/-- R62: the destination of a write operand in position and relative mode, and the fault of one that is out
of bounds, which every storing instruction takes, `in` also with no input pending. -/
def Obligations.WriteOperandResolution : Prop :=
  ∀ (s : State) (k : Nat) (p : Word) (m : Mode) (addr : Int),
    (m = .position ∧ addr = p.toInt ∨ m = .relative ∧ addr = s.rb.toInt + p.toInt) →
    (s.inBounds addr → s.writeOperand k ⟨m, p⟩ = .ok addr.toNat) ∧
    (¬ s.inBounds addr → s.writeOperand k ⟨m, p⟩ =
        .error { kind := .outOfBounds, operand := some k, raw := some p, addr := some addr } ∧
      exec (.inp ⟨m, p⟩) s = .next (s.takeFault
        { kind := .outOfBounds, operand := some 0, raw := some p, addr := some addr }) ∧
      ∀ a b v0 v1 i, s.ReadsAs a v0 → s.ReadsAs b v1 →
        (i = .add a b ⟨m, p⟩ ∨ i = .mul a b ⟨m, p⟩ ∨ i = .lt a b ⟨m, p⟩ ∨ i = .eq a b ⟨m, p⟩) →
        exec i s = .next (s.takeFault
          { kind := .outOfBounds, operand := some 2, raw := some p, addr := some addr }))

/-- R63: the relative address is the exact sum, never wrapped: in bounds it names the cell to read or write
(a negative raw operand too), out of bounds it is the address of the fault, and a sum outside the int64 range
is never in bounds. -/
def Obligations.RelativeAddressIsTheExactSum : Prop :=
  ∀ (s : State) (k : Nat) (p : Word),
    (s.inBounds (s.rb.toInt + p.toInt) →
      s.readOperand k ⟨.relative, p⟩ = .ok (s.mem.read (s.rb.toInt + p.toInt).toNat) ∧
      s.writeOperand k ⟨.relative, p⟩ = .ok (s.rb.toInt + p.toInt).toNat) ∧
    (¬ s.inBounds (s.rb.toInt + p.toInt) → ∀ info : FaultInfo,
      info = { kind := .outOfBounds, operand := some k, raw := some p, addr := some (s.rb.toInt + p.toInt) } →
      s.readOperand k ⟨.relative, p⟩ = .error info ∧ s.writeOperand k ⟨.relative, p⟩ = .error info) ∧
    (¬ fitsI64 (s.rb.toInt + p.toInt) → ¬ s.inBounds (s.rb.toInt + p.toInt))

/-- R44: immediate mode on the write operand of an instruction is IllegalWriteMode, in any state. That `exec`
takes it for a term no word encodes is the model's choice (log entry 8). -/
def Obligations.ImmediateWriteOperandFaults : Prop :=
  ∀ (s : State) (a b d : Operand), d.mode = .immediate →
    (∀ i, i = .add a b d ∨ i = .mul a b d ∨ i = .lt a b d ∨ i = .eq a b d →
      exec i s = .next (s.takeFault { kind := .illegalWriteMode, operand := some 2 })) ∧
    exec (.inp d) s = .next (s.takeFault { kind := .illegalWriteMode, operand := some 0 })

/-! ### The step -/

/-- R64: while Running, a step executes the instruction that the cells at `ip` decode to. -/
def Obligations.StepRunsTheDecodedInstruction : Prop :=
  ∀ (s : State) (i : Instr), s.status = .running →
    decode s.config.strictModeDigits s.fetchCells = .ok i → step s = exec i s

/-- R55: the step is total, and its result fits the table's next state. The result stands in `lastResult`,
the model's own field (log entry 1). -/
def Obligations.StepResultTable : Prop :=
  ∀ s : State, ∃ t r, step s = .next t ∧ t.lastResult = some r ∧
    match r with
    | .continued => s.status = .running ∧ t.status = .running
    | .output v => s.status = .running ∧
        ∃ a, s.Executes (.out a) ∧ s.ReadsAs a v ∧ t.ip.toInt = s.ip.toInt + 2 ∧ t.status = .running
    | .needsInput => s.pending = none ∧ (∃ d, s.Executes (.inp d)) ∧ t = s.report .needsInput
    | .halted => t = { s with status := .halted, lastResult := some .halted }
    | .fault f => t = { s with status := .faulted f, lastResult := some (.fault f) }

/-- R56: a halted machine returns Halted and changes nothing; a faulted one returns the same fault and
changes nothing. The result stands in `lastResult`, the model's own field (log entry 1). -/
def Obligations.StatusGate : Prop :=
  (∀ s : State, s.status = .halted → step s = .next { s with lastResult := some .halted }) ∧
  ∀ (s : State) (f : FaultRecord), s.status = .faulted f →
    step s = .next { s with lastResult := some (.fault f) }

/-- R65: the three ways of `ip`. For an executed instruction `next = ip + 1 + n` is exact; an `in` advances only
when it consumes, and a jump only when it is not taken. -/
def Obligations.IpUpdate : Prop :=
  ∀ (s t : State) (i : Instr), s.Executes i → step s = .next t →
    (t.ip.toInt = s.ip.toInt + 1 + i.code.nops ∧ t.status = .running ∧ i ≠ .hlt ∧
      (∀ d, i = .inp d → s.pending ≠ none) ∧
      (∀ cond target v0, i = .jt cond target → s.ReadsAs cond v0 → v0.toInt = 0) ∧
      ∀ cond target v0, i = .jf cond target → s.ReadsAs cond v0 → v0.toInt ≠ 0) ∨
    (∃ cond target v0 v1, s.ReadsAs cond v0 ∧ s.ReadsAs target v1 ∧ t.ip = v1 ∧ t.status = .running ∧
      (i = .jt cond target ∧ v0.toInt ≠ 0 ∨ i = .jf cond target ∧ v0.toInt = 0)) ∨
    (t.ip = s.ip ∧
      (i = .hlt ∧ t.status = .halted ∨ (∃ d, i = .inp d ∧ s.pending = none) ∨ ∃ f, t.status = .faulted f))

/-- R95: a step that ends in a fault leaves everything but the latch (and the model's `lastResult`) as it
was. -/
def Obligations.FaultsArePrecise : Prop :=
  ∀ (s t : State) (f : FaultRecord), step s = .next t → t.status = .faulted f →
    t.mem = s.mem ∧ t.ip = s.ip ∧ t.rb = s.rb ∧ t.pending = s.pending ∧ t.memLen = s.memLen ∧
      t.config = s.config

/-- R94: the record of a fault raised by a running step. -/
def Obligations.FaultRecordFields : Prop :=
  ∀ (s t : State) (f : FaultRecord), s.status = .running → step s = .next t → t.status = .faulted f →
    t.lastResult = some (.fault f) ∧ f.ip = s.ip ∧ f.rb = s.rb ∧
    (s.inBounds s.ip.toInt → f.word = some (s.mem.read s.ip.toInt.toNat)) ∧
    (¬ s.inBounds s.ip.toInt → f.word = none) ∧
    (f.kind = .outOfBounds ↔ f.addr.isSome) ∧
    (∀ a, f.addr = some a → ¬ s.inBounds a) ∧
    (f.raw.isSome → f.operand.isSome ∧ f.addr.isSome)

/-- R19, R97: the ends are absorbing. A fault is latched for ever and a halted machine stays halted, with
nothing of the machine changed, however many steps are run. -/
def Obligations.EndsAreAbsorbing : Prop :=
  ∀ (k : Nat) (s t : State), Steps k s t →
    (s.status = .halted → t = { s with lastResult := t.lastResult }) ∧
    ∀ f, s.status = .faulted f → t = { s with lastResult := t.lastResult }

/-- R16: only arb writes `rb`. -/
def Obligations.OnlyArbWritesRelativeBase : Prop :=
  ∀ s t : State, step s = .next t → t.rb ≠ s.rb → ∃ a, s.Executes (.arb a)

/-- R17: among steps, only `in` changes the pending slot, and it empties it. -/
def Obligations.OnlyInClearsPending : Prop :=
  ∀ s t : State, step s = .next t → t.pending ≠ s.pending →
    t.pending = none ∧ ∃ d, s.Executes (.inp d)

/-- R14, R35: a cell that a step changes is the destination of an executed add, mul, in, lt or eq. -/
def Obligations.OnlyDestinationCellsChange : Prop :=
  ∀ (s t : State) (a : Nat), step s = .next t → t.mem.read a ≠ s.mem.read a →
    ∃ d, s.WritesTo d a ∧
      (s.Executes (.inp d) ∨ ∃ x y, s.Executes (.add x y d) ∨ s.Executes (.mul x y d) ∨
        s.Executes (.lt x y d) ∨ s.Executes (.eq x y d))

/-- R22, R25: no step changes `MEM_LEN` or a parameter. -/
def Obligations.ParametersNeverChange : Prop :=
  ∀ (k : Nat) (s t : State), Steps k s t → t.memLen = s.memLen ∧ t.config = s.config

/-! ### Memory and results -/

/-- R26: a write replaces its cell and no other, and keeps the canonical form (the form is the model's own,
log entry 5). -/
def Obligations.WriteReplacesOneCell : Prop :=
  ∀ (m : Memory) (a : Nat) (v : Word), m.wf →
    (m.write a v).read a = v ∧ (∀ b, b ≠ a → (m.write a v).read b = m.read b) ∧ (m.write a v).wf

/-- R36: a stored cell is what a later fetch at it gets. -/
def Obligations.StoredCellIsFetched : Prop :=
  ∀ (s t : State) (d : Nat) (v : Word), s.mem.wf → d < s.memLen.val →
    t.mem = (s.store d v).mem → t.memLen = s.memLen → t.ip.toInt = d → t.fetchCells.head? = some v

/-- R9: a result that fits is kept; one that does not is ArithmeticOverflow under fault and, under wrap, the
int64 congruent to it modulo 2^64. -/
def Obligations.OverflowPolicyOfResults : Prop :=
  ∀ v : Int,
    (fitsI64 v → ∀ p, ∃ r, toI64 p v = .ok r ∧ r.toInt = v) ∧
    (¬ fitsI64 v → toI64 .fault v = .error { kind := .arithmeticOverflow }) ∧
    ∃ r, toI64 .wrap v = .ok r ∧ (r.toInt - v) % 2 ^ 64 = 0

/-! ### The instructions: results, with the whole next state

The result of the step stands in `lastResult`, the model's own field (log entry 1). -/

/-- R69: add writes the sum, for every operand form, when it fits or the policy is wrap. -/
def Obligations.AddWritesSum : Prop :=
  ∀ (s : State) (a b d : Operand) (v0 v1 : Word) (e : Nat),
    s.ReadsAs a v0 → s.ReadsAs b v1 → s.WritesTo d e →
    (fitsI64 (v0.toInt + v1.toInt) ∨ s.config.overflowPolicy = .wrap) →
    exec (.add a b d) s = .next { s with
      mem := s.mem.write e (BitVec.ofInt 64 (v0.toInt + v1.toInt))
      ip := BitVec.ofInt 64 (s.ip.toInt + 4)
      lastResult := some .continued }

/-- R70: mul writes the product, for every operand form, when it fits or the policy is wrap. -/
def Obligations.MulWritesProduct : Prop :=
  ∀ (s : State) (a b d : Operand) (v0 v1 : Word) (e : Nat),
    s.ReadsAs a v0 → s.ReadsAs b v1 → s.WritesTo d e →
    (fitsI64 (v0.toInt * v1.toInt) ∨ s.config.overflowPolicy = .wrap) →
    exec (.mul a b d) s = .next { s with
      mem := s.mem.write e (BitVec.ofInt 64 (v0.toInt * v1.toInt))
      ip := BitVec.ofInt 64 (s.ip.toInt + 4)
      lastResult := some .continued }

/-- R69, R70, R79: an overflow under the policy fault is ArithmeticOverflow, taken with nothing written. -/
def Obligations.OverflowFaultsWriteNothing : Prop :=
  ∀ (s : State) (a b d : Operand) (v0 v1 : Word) (e : Nat), s.config.overflowPolicy = .fault →
    s.ReadsAs a v0 → s.ReadsAs b v1 → s.WritesTo d e →
    (¬ fitsI64 (v0.toInt + v1.toInt) →
      exec (.add a b d) s = .next (s.takeFault { kind := .arithmeticOverflow })) ∧
    (¬ fitsI64 (v0.toInt * v1.toInt) →
      exec (.mul a b d) s = .next (s.takeFault { kind := .arithmeticOverflow })) ∧
    (¬ fitsI64 (s.rb.toInt + v0.toInt) →
      exec (.arb a) s = .next (s.takeFault { kind := .arithmeticOverflow }))

/-- R71: with an input pending, in stores it, empties the slot and advances by 2. -/
def Obligations.InStoresPendingInput : Prop :=
  ∀ (s : State) (d : Operand) (v : Word) (e : Nat), s.WritesTo d e → s.pending = some v →
    exec (.inp d) s = .next { s with
      mem := s.mem.write e v
      ip := BitVec.ofInt 64 (s.ip.toInt + 2)
      pending := none
      lastResult := some .continued }

/-- R67, R71: with none pending, in changes nothing and the result is NeedsInput. A destination that does not
resolve faults first, whether or not input is pending, and none is consumed. That `exec` takes IllegalWriteMode
for an immediate destination, a term no word encodes, is the model's choice (log entry 8). -/
def Obligations.InWithoutInputWaits : Prop :=
  ∀ (s : State) (d : Operand),
    (∀ e, s.WritesTo d e → s.pending = none →
      exec (.inp d) s = .next { s with lastResult := some .needsInput }) ∧
    ((∀ e, ¬ s.WritesTo d e) →
      ∃ info, exec (.inp d) s = .next (s.takeFault info) ∧ (s.takeFault info).pending = s.pending ∧
        (d.mode = .immediate → info.kind = .illegalWriteMode) ∧
        (d.mode ≠ .immediate → info.kind = .outOfBounds))

/-- R72: out advances by 2 and its result is Output of the value. -/
def Obligations.OutEmitsValue : Prop :=
  ∀ (s : State) (a : Operand) (v : Word), s.ReadsAs a v →
    exec (.out a) s = .next { s with
      ip := BitVec.ofInt 64 (s.ip.toInt + 2)
      lastResult := some (.output v) }

/-- R73, R74: jt jumps to the value of its target iff the condition is not 0; the target is not checked. -/
def Obligations.JtJumpsOnNonzero : Prop :=
  ∀ (s : State) (cond target : Operand) (v0 v1 : Word), s.ReadsAs cond v0 → s.ReadsAs target v1 →
    (v0.toInt ≠ 0 → exec (.jt cond target) s =
      .next { s with ip := v1, lastResult := some .continued }) ∧
    (v0.toInt = 0 → exec (.jt cond target) s =
      .next { s with ip := BitVec.ofInt 64 (s.ip.toInt + 3), lastResult := some .continued })

/-- R73, R75: jf jumps to the value of its target iff the condition is 0. -/
def Obligations.JfJumpsOnZero : Prop :=
  ∀ (s : State) (cond target : Operand) (v0 v1 : Word), s.ReadsAs cond v0 → s.ReadsAs target v1 →
    (v0.toInt = 0 → exec (.jf cond target) s =
      .next { s with ip := v1, lastResult := some .continued }) ∧
    (v0.toInt ≠ 0 → exec (.jf cond target) s =
      .next { s with ip := BitVec.ofInt 64 (s.ip.toInt + 3), lastResult := some .continued })

/-- R76, R77, R78: lt and eq write 1 for true and 0 for false. -/
def Obligations.ComparisonsWriteOneOrZero : Prop :=
  ∀ (s : State) (a b d : Operand) (v0 v1 : Word) (e : Nat),
    s.ReadsAs a v0 → s.ReadsAs b v1 → s.WritesTo d e →
    exec (.lt a b d) s = .next { s with
      mem := s.mem.write e (if v0.toInt < v1.toInt then 1 else 0)
      ip := BitVec.ofInt 64 (s.ip.toInt + 4)
      lastResult := some .continued } ∧
    exec (.eq a b d) s = .next { s with
      mem := s.mem.write e (if v0 = v1 then 1 else 0)
      ip := BitVec.ofInt 64 (s.ip.toInt + 4)
      lastResult := some .continued }

/-- R79: arb adds its operand, read at the old `rb`, when the sum fits or the policy is wrap. -/
def Obligations.ArbAddsToRelativeBase : Prop :=
  ∀ (s : State) (a : Operand) (v : Word), s.ReadsAs a v →
    (fitsI64 (s.rb.toInt + v.toInt) ∨ s.config.overflowPolicy = .wrap) →
    exec (.arb a) s = .next { s with
      rb := BitVec.ofInt 64 (s.rb.toInt + v.toInt)
      ip := BitVec.ofInt 64 (s.ip.toInt + 2)
      lastResult := some .continued }

/-- R80: hlt sets the halted flag and leaves `ip` at the halt cell. -/
def Obligations.HltHalts : Prop :=
  ∀ s : State, exec .hlt s = .next { s with status := .halted, lastResult := some .halted }

/-- The frame of add, mul, lt and eq (R35, R66, R69, R70, R77, R78). -/
def Obligations.FrameOfStoringInstructions : Prop :=
  ∀ (s t : State) (a b d : Operand) (i : Instr),
    (i = .add a b d ∨ i = .mul a b d ∨ i = .lt a b d ∨ i = .eq a b d) → exec i s = .next t →
    t.memLen = s.memLen ∧ t.rb = s.rb ∧ t.pending = s.pending ∧ t.config = s.config ∧
    (t.status = s.status ∨ ∃ info, t = s.takeFault info) ∧
    (∀ e, s.writeOperand 2 d = .ok e → ∀ x, x ≠ e → t.mem.read x = s.mem.read x) ∧
    ∀ info, t = s.takeFault info → ∀ x, t.mem.read x = s.mem.read x

/-- The frame of in (R66, R71). -/
def Obligations.FrameOfInput : Prop :=
  ∀ (s t : State) (d : Operand), exec (.inp d) s = .next t →
    t.memLen = s.memLen ∧ t.rb = s.rb ∧ t.config = s.config ∧
    (t.status = s.status ∨ ∃ info, t = s.takeFault info) ∧
    (t.pending = s.pending ∨ t.pending = none ∧ t.lastResult = some .continued) ∧
    (∀ e, s.writeOperand 0 d = .ok e → ∀ x, x ≠ e → t.mem.read x = s.mem.read x) ∧
    (t.lastResult ≠ some .continued → ∀ x, t.mem.read x = s.mem.read x)

/-- The frame of out, jt, jf, arb and hlt (R66, R72, R74, R75, R79, R80): they store nothing. -/
def Obligations.FrameOfNonStoringInstructions : Prop :=
  ∀ (s t : State) (a b : Operand) (i : Instr),
    (i = .out a ∨ i = .jt a b ∨ i = .jf a b ∨ i = .arb a ∨ i = .hlt) → exec i s = .next t →
    t.memLen = s.memLen ∧ t.pending = s.pending ∧ t.config = s.config ∧
    (∀ x, t.mem.read x = s.mem.read x) ∧ (i ≠ .arb a → t.rb = s.rb) ∧
    (t.status = s.status ∨ (∃ info, t = s.takeFault info) ∨ i = .hlt ∧ t.status = .halted)

/-! ### Construction and the ports -/

/-- R15, R16, R17, R19, R108: the reset values the spec states. The empty memory, its length and the
parameters of `State.reset` are the model's choices (log entries 3, 4, 5) and no part of this. -/
def Obligations.ResetValues : Prop :=
  State.reset.ip = 0 ∧ State.reset.rb = 0 ∧ State.reset.pending = none ∧ State.reset.status = .running

/-- R108: every piece of state after construction over a program padded with zeros. -/
def Obligations.ConstructSetsEveryField : Prop :=
  ∀ (config : Config) (program : List Word) (len : Nat) (hl : program.length ≤ len)
    (h : (bootBuffer program len).length < 2 ^ 63) (s : State), s = construct config (bootBuffer program len) h →
    (∀ (k : Nat) (hk : k < program.length), s.mem.read k = program[k]) ∧
    (∀ k, program.length ≤ k → k < len → s.mem.read k = 0) ∧
    s.memLen.val = len ∧ s.ip = 0 ∧ s.rb = 0 ∧ s.pending = none ∧ s.status = .running

/-- R82, R89: a snapshot right after construct is the buffer, whatever the buffer holds. -/
def Obligations.SnapshotOfConstructIsTheBuffer : Prop :=
  ∀ (config : Config) (B : List Word) (h : B.length < 2 ^ 63), snapshot (construct config B h) = B

/-- R83: provide_input fills the slot and changes nothing else, in every status; in a machine that is not
Running the value is never read. -/
def Obligations.ProvideInputOnlyFillsTheSlot : Prop :=
  ∀ (s : State) (v w : Word),
    provideInput v s = { s with pending := some v } ∧ provideInput w (provideInput v s) = provideInput w s ∧
    (s.status ≠ .running → ∃ t, step s = .next t ∧ step (provideInput v s) = .next (provideInput v t))

/-- R85, R88: `advance` as a relation is the loop of steps: it returns exactly what some fuel finds, it returns
one event and one state, and it fails to return exactly when no fuel finds an event. -/
def Obligations.AdvanceIsTheLoopOfSteps : Prop :=
  (∀ s e t, Advances s e t ↔ ∃ fuel, advanceWithin fuel s = some (e, t)) ∧
  (∀ s e e' t t', Advances s e t → Advances s e' t' → e = e' ∧ t = t') ∧
  ∀ s, Diverges s ↔ ¬ ∃ e t, Advances s e t

/-- R87: after Halted, and after a fault, every later advance returns the same event and changes nothing. -/
def Obligations.AdvanceIsIdempotentAfterTheEnd : Prop :=
  ∀ (s t : State) (e : Event), Advances s e t → (e = .halted ∨ ∃ f, e = .fault f) →
    Advances t e t ∧ ∀ e' u, Advances t e' u → e' = e ∧ u = t

/-- R86: when advance returns NeedsInput, the state is the one before the input step (but for the model's
`lastResult`); advancing again without input changes nothing; after provide_input the same instruction runs
first and consumes the value. -/
def Obligations.ResumeAfterNeedsInput : Prop :=
  ∀ s t : State, Advances s .needsInput t →
    ∃ (k : Nat) (r : State) (d : Operand) (e : Nat),
      Steps k s r ∧ r.Executes (.inp d) ∧ r.WritesTo d e ∧ r.pending = none ∧ t = r.report .needsInput ∧
      Advances t .needsInput t ∧
      ∀ v, ∃ u, step (provideInput v t) = .next u ∧ u.mem = t.mem.write e v ∧ u.pending = none ∧
        u.ip.toInt = t.ip.toInt + 2 ∧ u.event? = none

/-- R74, R75, R88: a taken jump to its own address, in any operand form, never produces an event. -/
def Obligations.JumpToItselfDiverges : Prop :=
  ∀ (s : State) (cond target : Operand) (v : Word), s.ReadsAs cond v → s.ReadsAs target s.ip →
    (s.Executes (.jt cond target) → v.toInt ≠ 0 → Diverges s) ∧
    (s.Executes (.jf cond target) → v.toInt = 0 → Diverges s)

/-- R90: the driver's loop with fuel finds exactly the ends of the driver. -/
def Obligations.DriverLoopFindsTheDriversEnds : Prop :=
  ∀ (s t : State) (q : List Word) (r : DriverEnd),
    RunsToCompletion s q r t ↔ ∃ fuel rounds, driveWithin fuel rounds s q [] = some (r, t)

/-- R91: InputExhausted leaves the machine Running, suspended at its input instruction, with no fault
latched; advance itself still reports NeedsInput. -/
def Obligations.InputExhaustedLeavesMachineSuspended : Prop :=
  ∀ (s t : State) (q outs : List Word), RunsToCompletion s q (.inputExhausted outs) t →
    t.status = .running ∧ t.pending = none ∧ (∃ d, t.Executes (.inp d)) ∧ Advances t .needsInput t

/-- R38, R104: a port operation on one instance leaves every other instance as it was. -/
def Obligations.InstancesShareNoState : Prop :=
  ∀ (is : Instances) (k j : Nat), j ≠ k →
    (∀ v, (is.provideInputAt k v)[j]? = is[j]?) ∧
    ∀ e js, is.AdvancesAt k e js → js[j]? = is[j]? ∧ js.length = is.length

/-! ### Invariants and whole-machine properties -/

/-- The invariant holds at reset. -/
def Obligations.ResetMeetsTheInvariant : Prop := State.reset.Inv

/-- Every step from a state that meets the invariant leads to one that does: memory stays canonical and
inside `MEM_LEN`, the reported result agrees with the status, and a latched fault record describes the state
it stands in (R23, R25, R55, R94, R95). -/
def Obligations.StepKeepsTheInvariant : Prop := ∀ s t : State, s.Inv → step s = .next t → t.Inv

/-- Every constructed machine meets the invariant, and every run of port operations keeps it (R81, R92). -/
def Obligations.RunsKeepTheInvariant : Prop :=
  (∀ config B h, (construct config B h).Inv) ∧
  ∀ s outs e t, s.Inv → Run s outs e t → t.Inv

/-- A halted machine is safe: no run of port operations from it reaches a fault (R56, R87, R92). -/
def Obligations.HaltedMachineIsSafe : Prop := ∀ s : State, s.status = .halted → Safe s

/-- 95_test_vectors.md section 1: a machine that only ever executes add, mul and hlt ends, halted or
faulted, within `MEM_LEN` steps, since each add or mul moves `ip` up by 4 (R65). With `MEM_LEN = 0` the one
step is the fetch that faults (DC9), which the paragraph's bound leaves out: hence `max 1`. -/
def Obligations.AddMulHaltMachinesTerminate : Prop :=
  ∀ s : State, s.status = .running →
    (∀ k t i, Steps k s t → t.Executes i → i.code = .add ∨ i.code = .mul ∨ i.code = .hlt) →
    ∃ e t, advanceWithin (max 1 s.memLen.val) s = some (e, t) ∧ (e = .halted ∨ ∃ f, e = .fault f)
end

