-- ==== Sys2Proof/Laws/Decode.lean ====
section
/-! SUPPORT. What the decoder accepts, said once for each of its functions (spec 40_dispatch.md R58, R59;
30_encoding.md R39 to R52). -/

namespace Sys2Proof

/-- A row is selected by its own number alone (R52). -/
theorem Code.ofNumber?_eq_some_iff {k : Nat} {c : Code} : Code.ofNumber? k = some c ↔ k = c.number := by
  constructor
  · intro h
    unfold Code.ofNumber? at h
    have hc := List.find?_some h
    exact (eq_of_beq hc).symm
  · rintro rfl
    cases c <;> rfl

theorem Code.ofNumber?_eq_none_iff {k : Nat} : Code.ofNumber? k = none ↔ ∀ c : Code, k ≠ c.number := by
  constructor
  · intro h c hc
    rw [Code.ofNumber?_eq_some_iff.mpr hc] at h
    cases h
  · intro h
    rcases hk : Code.ofNumber? k with _ | c
    · rfl
    · exact absurd (Code.ofNumber?_eq_some_iff.mp hk) (h c)

theorem Mode.ofDigit?_eq_some_iff {d : Nat} {m : Mode} : Mode.ofDigit? d = some m ↔ d = m.digit := by
  unfold Mode.ofDigit?
  split <;> cases m <;> simp_all [Mode.digit]

theorem Mode.ofDigit?_eq_none_iff {d : Nat} : Mode.ofDigit? d = none ↔ 3 ≤ d := by
  unfold Mode.ofDigit?
  split <;> simp_all
  omega

theorem Mode.digit_lt (m : Mode) : m.digit < 3 := by cases m <;> decide

/-- The modes that the loop of R59 accepts: one for each role, its digit the operand's, legal for the role. -/
theorem decodeModes_ok_iff {w k : Nat} {roles : List Role} {ms : List Mode} :
    decodeModes w roles k = .ok ms ↔
      ms.length = roles.length ∧ ∀ j role m, roles[j]? = some role → ms[j]? = some m →
        dig w (k + j + 2) = m.digit ∧ ¬ (role = .write ∧ m = .immediate) := by
  induction roles generalizing k ms with
  | nil => cases ms <;> simp [decodeModes]
  | cons r rs ih =>
    unfold decodeModes
    rcases hm : Mode.ofDigit? (dig w (k + 2)) with _ | m0
    · refine iff_of_false nofun ?_
      rintro ⟨hl, hall⟩
      cases ms with
      | nil => simp at hl
      | cons m ms =>
        have := (hall 0 r m rfl rfl).1
        have h3 := Mode.ofDigit?_eq_none_iff.mp hm
        have hlt := m.digit_lt
        rw [Nat.add_zero] at this
        omega
    · have hd := Mode.ofDigit?_eq_some_iff.mp hm
      simp only
      split
      · rename_i hbad
        refine iff_of_false nofun ?_
        rintro ⟨hl, hall⟩
        cases ms with
        | nil => simp at hl
        | cons m ms =>
          obtain ⟨h1, h2⟩ := hall 0 r m rfl rfl
          simp only [Nat.add_zero] at h1
          have : m = m0 := by cases m <;> cases m0 <;> simp_all [Mode.digit]
          exact h2 ⟨hbad.1, this ▸ hbad.2⟩
      · rename_i hgood
        rcases hrest : decodeModes w rs (k + 1) with e | ms'
        · refine iff_of_false nofun ?_
          rintro ⟨hl, hall⟩
          cases ms with
          | nil => simp at hl
          | cons m ms =>
            have : decodeModes w rs (k + 1) = .ok ms := ih.mpr ⟨by simpa using hl, fun j role m' hr hm' => by
              have := hall (j + 1) role m' (by simpa using hr) (by simpa using hm')
              rwa [show k + (j + 1) + 2 = k + 1 + j + 2 by omega] at this⟩
            exact absurd (hrest.symm.trans this) nofun
        · obtain ⟨hl', hall'⟩ := ih.mp hrest
          simp only [Except.ok.injEq]
          constructor
          · rintro rfl
            refine ⟨by simp [hl'], fun j role m hr hm' => ?_⟩
            cases j with
            | zero =>
              simp only [List.getElem?_cons_zero, Option.some.injEq] at hr hm'
              subst hr hm'
              exact ⟨by simpa using hd, hgood⟩
            | succ j =>
              have := hall' j role m (by simpa using hr) (by simpa using hm')
              rwa [show k + 1 + j + 2 = k + (j + 1) + 2 by omega] at this
          · rintro ⟨hl, hall⟩
            cases ms with
            | nil => simp at hl
            | cons m ms =>
              have h0 := (hall 0 r m rfl rfl).1
              simp only [Nat.add_zero] at h0
              have hm0 : m0 = m := by cases m <;> cases m0 <;> simp_all [Mode.digit]
              have : decodeModes w rs (k + 1) = .ok ms := ih.mpr ⟨by simpa using hl, fun j role m' hr hm' => by
                have := hall (j + 1) role m' (by simpa using hr) (by simpa using hm')
                rwa [show k + (j + 1) + 2 = k + 1 + j + 2 by omega] at this⟩
              rw [hrest] at this
              cases this
              rw [hm0]

/-- What R58 and R59 accept. -/
theorem decodeOpcode_ok_iff {strict : Bool} {w : Word} {c : Code} {ms : List Mode} :
    decodeOpcode strict w = .ok (c, ms) ↔
      0 ≤ w.toInt ∧ w.toNat % 100 = c.number ∧
        ¬ (strict = true ∧ w.toNat / 10 ^ (2 + c.nops) ≠ 0) ∧ decodeModes w.toNat c.roles 0 = .ok ms := by
  unfold decodeOpcode
  split
  · rename_i h; refine iff_of_false nofun ?_; rintro ⟨h0, -⟩; omega
  · rename_i h
    have h0 : 0 ≤ w.toInt := Int.not_lt.mp h
    rcases hc : Code.ofNumber? (w.toNat % 100) with _ | c'
    · simp only [reduceCtorEq, false_iff, not_and]
      intro _ hn
      exact absurd hn (Code.ofNumber?_eq_none_iff.mp hc c)
    · have hn := Code.ofNumber?_eq_some_iff.mp hc
      have hcc : ∀ {c : Code}, w.toNat % 100 = c.number → c' = c := fun h' => by
        have := Code.ofNumber?_eq_some_iff.mpr h'
        rw [hc] at this
        exact Option.some.inj this
      simp only
      split
      · rename_i hx
        refine iff_of_false nofun ?_
        rintro ⟨-, hn', hx', -⟩
        obtain rfl := hcc hn'
        exact hx' hx
      · rename_i hx
        rcases hd : decodeModes w.toNat c'.roles 0 with e | ms'
        · simp only [reduceCtorEq, false_iff, not_and]
          rintro _ hn' _ h'
          rw [← hcc hn', hd] at h'
          cases h'
        · simp only [Except.ok.injEq, Prod.mk.injEq]
          constructor
          · rintro ⟨rfl, rfl⟩; exact ⟨h0, hn, hx, hd⟩
          · rintro ⟨-, hn', -, hd'⟩
            obtain rfl := hcc hn'
            rw [hd] at hd'
            exact ⟨rfl, Except.ok.inj hd'⟩

theorem decodeOpcode_length {strict : Bool} {w : Word} {c : Code} {ms : List Mode}
    (h : decodeOpcode strict w = .ok (c, ms)) : ms.length = c.nops :=
  (decodeModes_ok_iff.mp (decodeOpcode_ok_iff.mp h).2.2.2).1

theorem decodeModes_ne_truncated (w : Nat) (roles : List Role) (k : Nat) (present : List (Role × Operand)) :
    decodeModes w roles k ≠ .error (.truncated present) := by
  induction roles generalizing k with
  | nil => exact nofun
  | cons r rs ih =>
    unfold decodeModes
    split
    · exact nofun
    · split
      · exact nofun
      · split
        · exact nofun
        · rename_i h
          intro hr
          rw [Except.error.inj hr] at h
          exact ih (k + 1) h

/-- The opcode word alone is never rejected as truncated or as missing. -/
theorem decodeOpcode_ne_truncated (strict : Bool) (w : Word) (present : List (Role × Operand)) :
    decodeOpcode strict w ≠ .error (.truncated present) := by
  unfold decodeOpcode
  split
  · exact nofun
  · split
    · exact nofun
    · split
      · exact nofun
      · split
        · exact nofun
        · rename_i h
          intro hr
          rw [Except.error.inj hr] at h
          exact decodeModes_ne_truncated _ _ _ _ h

theorem decodeModes_ne_noWord (w : Nat) (roles : List Role) (k : Nat) :
    decodeModes w roles k ≠ .error .noWord := by
  induction roles generalizing k with
  | nil => exact nofun
  | cons r rs ih =>
    unfold decodeModes
    split
    · exact nofun
    · split
      · exact nofun
      · split
        · exact nofun
        · rename_i h
          intro hr
          rw [Except.error.inj hr] at h
          exact ih (k + 1) h

/-- Only an empty list of cells has no opcode word. -/
theorem decode_cons_ne_noWord (strict : Bool) (w : Word) (rest : List Word) :
    decode strict (w :: rest) ≠ .error .noWord := by
  unfold decode decodeOpcode
  simp only
  split
  · rename_i h
    intro hr
    rw [Except.error.inj hr] at h
    split at h
    · cases h
    · split at h
      · cases h
      · split at h
        · cases h
        · split at h
          · cases h
          · rename_i h'
            rw [Except.error.inj h] at h'
            exact decodeModes_ne_noWord _ _ _ h'
  · split <;> exact nofun

/-- An instruction is its code and its operands. -/
theorem Code.build_eq_some_iff {c : Code} {ops : List Operand} {i : Instr} :
    c.build ops = some i ↔ i.code = c ∧ i.operands = ops := by
  constructor
  · intro h
    unfold Code.build at h
    split at h <;> first | (cases h; exact ⟨rfl, rfl⟩) | cases h
  · rintro ⟨rfl, rfl⟩
    cases i <;> rfl

theorem Code.nops_lt (c : Code) : c.nops < 4 := by cases c <;> decide

theorem Instr.operands_length (i : Instr) : i.operands.length = i.code.nops := by cases i <;> rfl

/-- As many operands as the code has make an instruction. -/
theorem Code.build_isSome {c : Code} {ops : List Operand} (h : ops.length = c.nops) :
    ∃ i, c.build ops = some i := by
  match ops with
  | [] => cases c <;> first | exact ⟨_, rfl⟩ | cases h
  | [a] => cases c <;> first | exact ⟨_, rfl⟩ | cases h
  | [a, b] => cases c <;> first | exact ⟨_, rfl⟩ | cases h
  | [a, b, d] => cases c <;> first | exact ⟨_, rfl⟩ | cases h
  | _ :: _ :: _ :: _ :: _ => cases c <;> simp [Code.nops, Code.roles] at h

/-- What decoding accepts: a legal opcode word, and one cell for each operand. -/
theorem decode_ok_iff {strict : Bool} {cells : List Word} {i : Instr} :
    decode strict cells = .ok i ↔
      ∃ w rest ms, cells = w :: rest ∧ decodeOpcode strict w = .ok (i.code, ms) ∧
        i.operands = List.zipWith Operand.mk ms rest := by
  unfold decode
  cases cells with
  | nil => simp
  | cons w rest =>
    simp only
    rcases hw : decodeOpcode strict w with e | ⟨c, ms⟩
    · simp only [reduceCtorEq, List.cons.injEq, false_iff]
      rintro ⟨w', rest', ms, ⟨rfl, rfl⟩, h, -⟩
      rw [hw] at h
      cases h
    · simp only
      rcases hb : c.build (List.zipWith Operand.mk ms rest) with _ | i'
      · simp only [reduceCtorEq, List.cons.injEq, false_iff]
        rintro ⟨w', rest', ms', ⟨rfl, rfl⟩, h, ho⟩
        rw [hw] at h
        simp only [Except.ok.injEq, Prod.mk.injEq] at h
        rw [Code.build_eq_some_iff.mpr ⟨h.1.symm, h.2 ▸ ho⟩] at hb
        cases hb
      · obtain ⟨hc, ho⟩ := Code.build_eq_some_iff.mp hb
        simp only [Except.ok.injEq, List.cons.injEq]
        constructor
        · rintro rfl
          exact ⟨w, rest, ms, ⟨rfl, rfl⟩, by rw [hw, hc], ho⟩
        · rintro ⟨w', rest', ms', ⟨rfl, rfl⟩, h, ho'⟩
          rw [hw] at h
          simp only [Except.ok.injEq, Prod.mk.injEq] at h
          have := Code.build_eq_some_iff.mpr ⟨h.1.symm, h.2 ▸ ho'⟩
          rw [hb] at this
          exact Option.some.inj this

end Sys2Proof
end

