-- ==== Sys2Proof/Laws/State.lean ====
section
/-! SUPPORT. What each update of the state does to each field. -/

namespace Sys2Proof.Machine

variable (s : State)

/-! ### store -/

@[simp] theorem State.store_mem (d : Nat) (v : Word) : (s.store d v).mem = s.mem.write d v := rfl
@[simp] theorem State.store_memLen (d : Nat) (v : Word) : (s.store d v).memLen = s.memLen := rfl
@[simp] theorem State.store_ip (d : Nat) (v : Word) : (s.store d v).ip = s.ip := rfl
@[simp] theorem State.store_rb (d : Nat) (v : Word) : (s.store d v).rb = s.rb := rfl
@[simp] theorem State.store_pending (d : Nat) (v : Word) : (s.store d v).pending = s.pending := rfl
@[simp] theorem State.store_status (d : Nat) (v : Word) : (s.store d v).status = s.status := rfl
@[simp] theorem State.store_config (d : Nat) (v : Word) : (s.store d v).config = s.config := rfl
@[simp] theorem State.store_lastResult (d : Nat) (v : Word) : (s.store d v).lastResult = s.lastResult := rfl

/-! ### advance -/

@[simp] theorem State.advance_mem (n : Nat) : (s.advance n).mem = s.mem := rfl
@[simp] theorem State.advance_memLen (n : Nat) : (s.advance n).memLen = s.memLen := rfl
@[simp] theorem State.advance_ip (n : Nat) : (s.advance n).ip = BitVec.ofInt 64 (s.ip.toInt + 1 + n) := rfl
@[simp] theorem State.advance_rb (n : Nat) : (s.advance n).rb = s.rb := rfl
@[simp] theorem State.advance_pending (n : Nat) : (s.advance n).pending = s.pending := rfl
@[simp] theorem State.advance_status (n : Nat) : (s.advance n).status = s.status := rfl
@[simp] theorem State.advance_config (n : Nat) : (s.advance n).config = s.config := rfl
@[simp] theorem State.advance_lastResult (n : Nat) : (s.advance n).lastResult = some .continued := rfl

/-! ### jump -/

@[simp] theorem State.jump_mem (target : Word) : (s.jump target).mem = s.mem := rfl
@[simp] theorem State.jump_memLen (target : Word) : (s.jump target).memLen = s.memLen := rfl
@[simp] theorem State.jump_ip (target : Word) : (s.jump target).ip = target := rfl
@[simp] theorem State.jump_rb (target : Word) : (s.jump target).rb = s.rb := rfl
@[simp] theorem State.jump_pending (target : Word) : (s.jump target).pending = s.pending := rfl
@[simp] theorem State.jump_status (target : Word) : (s.jump target).status = s.status := rfl
@[simp] theorem State.jump_config (target : Word) : (s.jump target).config = s.config := rfl
@[simp] theorem State.jump_lastResult (target : Word) : (s.jump target).lastResult = some .continued := rfl

/-! ### report -/

@[simp] theorem State.report_mem (r : StepResult) : (s.report r).mem = s.mem := rfl
@[simp] theorem State.report_memLen (r : StepResult) : (s.report r).memLen = s.memLen := rfl
@[simp] theorem State.report_ip (r : StepResult) : (s.report r).ip = s.ip := rfl
@[simp] theorem State.report_rb (r : StepResult) : (s.report r).rb = s.rb := rfl
@[simp] theorem State.report_pending (r : StepResult) : (s.report r).pending = s.pending := rfl
@[simp] theorem State.report_status (r : StepResult) : (s.report r).status = s.status := rfl
@[simp] theorem State.report_config (r : StepResult) : (s.report r).config = s.config := rfl
@[simp] theorem State.report_lastResult (r : StepResult) : (s.report r).lastResult = some r := rfl

/-! ### takeFault -/

@[simp] theorem State.takeFault_mem (info : FaultInfo) : (s.takeFault info).mem = s.mem := rfl
@[simp] theorem State.takeFault_memLen (info : FaultInfo) : (s.takeFault info).memLen = s.memLen := rfl
@[simp] theorem State.takeFault_ip (info : FaultInfo) : (s.takeFault info).ip = s.ip := rfl
@[simp] theorem State.takeFault_rb (info : FaultInfo) : (s.takeFault info).rb = s.rb := rfl
@[simp] theorem State.takeFault_pending (info : FaultInfo) : (s.takeFault info).pending = s.pending := rfl
@[simp] theorem State.takeFault_status (info : FaultInfo) : (s.takeFault info).status = .faulted (s.faultRecord info) := rfl
@[simp] theorem State.takeFault_config (info : FaultInfo) : (s.takeFault info).config = s.config := rfl
@[simp] theorem State.takeFault_lastResult (info : FaultInfo) : (s.takeFault info).lastResult = some (.fault (s.faultRecord info)) := rfl

/-! ### provide_input -/

@[simp] theorem provideInput_mem (v : Word) : (provideInput v s).mem = s.mem := rfl
@[simp] theorem provideInput_memLen (v : Word) : (provideInput v s).memLen = s.memLen := rfl
@[simp] theorem provideInput_ip (v : Word) : (provideInput v s).ip = s.ip := rfl
@[simp] theorem provideInput_rb (v : Word) : (provideInput v s).rb = s.rb := rfl
@[simp] theorem provideInput_pending (v : Word) : (provideInput v s).pending = some v := rfl
@[simp] theorem provideInput_status (v : Word) : (provideInput v s).status = s.status := rfl
@[simp] theorem provideInput_config (v : Word) : (provideInput v s).config = s.config := rfl
@[simp] theorem provideInput_lastResult (v : Word) : (provideInput v s).lastResult = s.lastResult := rfl

/-! ### Derived readings -/

@[simp] theorem State.faultRecord_kind (info : FaultInfo) : (s.faultRecord info).kind = info.kind := rfl
@[simp] theorem State.faultRecord_ip (info : FaultInfo) : (s.faultRecord info).ip = s.ip := rfl
@[simp] theorem State.faultRecord_rb (info : FaultInfo) : (s.faultRecord info).rb = s.rb := rfl
@[simp] theorem State.faultRecord_addr (info : FaultInfo) : (s.faultRecord info).addr = info.addr := rfl
@[simp] theorem State.faultRecord_word (info : FaultInfo) :
    (s.faultRecord info).word = s.cell? s.ip.toInt := rfl

@[simp] theorem State.finish_ok (t : State) : s.finish (.ok t) = .next t := rfl
@[simp] theorem State.finish_error (info : FaultInfo) :
    s.finish (.error info) = .next (s.takeFault info) := rfl

/-- A state that takes a fault and one that reports read every cell as before. -/
@[simp] theorem State.takeFault_cell? (info : FaultInfo) (a : Int) :
    (s.takeFault info).cell? a = s.cell? a := rfl
@[simp] theorem State.report_cell? (r : StepResult) (a : Int) : (s.report r).cell? a = s.cell? a := rfl

end Sys2Proof.Machine
end

