-- ==== Sys2Proof/Laws/Operands.lean ====
section
/-! SUPPORT. What the resolver, the range check and the operand shapes can answer
(spec 00_scope.md R9, 40_dispatch.md R59 to R62). -/

namespace Sys2Proof.Machine

/-! ### The range check -/

/-- A number that fits is the number of its word. -/
theorem toInt_ofInt_of_fitsI64 {v : Int} (h : fitsI64 v) : (BitVec.ofInt 64 v).toInt = v := by
  rw [BitVec.toInt_ofInt]
  exact Int.bmod_eq_of_le (by omega) (by omega)

theorem toI64_of_fits (p : OverflowPolicy) {v : Int} (h : fitsI64 v) :
    toI64 p v = .ok (BitVec.ofInt 64 v) := if_pos h

theorem toI64_overflow {v : Int} (h : ¬ fitsI64 v) :
    toI64 .fault v = .error { kind := .arithmeticOverflow } := if_neg h

theorem toI64_wrap (v : Int) : toI64 .wrap v = .ok (BitVec.ofInt 64 v) := by
  unfold toI64; split <;> rfl

/-- The only fault of the range check is ArithmeticOverflow, under the policy fault. -/
theorem toI64_error {p : OverflowPolicy} {v : Int} {e : FaultInfo} (h : toI64 p v = .error e) :
    e = { kind := .arithmeticOverflow } ∧ p = .fault ∧ ¬ fitsI64 v := by
  unfold toI64 at h
  split at h
  · cases h
  · cases p <;> simp_all

/-- A result of the range check is the word of the number. -/
theorem toI64_ok {p : OverflowPolicy} {v : Int} {r : Word} (h : toI64 p v = .ok r) :
    r = BitVec.ofInt 64 v := by
  unfold toI64 at h
  split at h
  · simpa using h.symm
  · cases p <;> simp_all

/-! ### Operands -/

theorem State.checkAddr_ok_iff {s : State} {k : Nat} {raw : Word} {addr : Int} {d : Nat} :
    s.checkAddr k raw addr = .ok d ↔ 0 ≤ addr ∧ addr < s.memLen.val ∧ (d : Int) = addr := by
  unfold State.checkAddr
  split
  · rename_i h; simp only [Except.ok.injEq]; omega
  · rename_i h
    simp only [reduceCtorEq, false_iff, not_and]
    intro h0 h1; exact absurd ⟨h0, h1⟩ h

theorem State.checkAddr_error {s : State} {k : Nat} {raw : Word} {addr : Int} {e : FaultInfo}
    (h : s.checkAddr k raw addr = .error e) :
    e = { kind := .outOfBounds, operand := some k, raw := some raw, addr := some addr } ∧
      ¬ s.inBounds addr := by
  unfold State.checkAddr at h
  split at h
  · cases h
  · exact ⟨by simpa using h.symm, ‹_›⟩

/-- A read operand resolves to `v` as R61 says. -/
theorem State.readOperand_ok_iff {s : State} {k : Nat} {o : Operand} {v : Word} :
    s.readOperand k o = .ok v ↔ s.ReadsAs o v := by
  have key : ∀ addr : Int, (s.checkAddr k o.raw addr).map s.mem.read = .ok v ↔ s.CellIs addr v := by
    intro addr
    unfold State.CellIs
    rcases hc : s.checkAddr k o.raw addr with e | d
    · have := (State.checkAddr_error hc).2
      simp only [Except.map, reduceCtorEq, false_iff]
      rintro ⟨h0, h1, -⟩; exact this ⟨h0, h1⟩
    · obtain ⟨h0, h1, h2⟩ := State.checkAddr_ok_iff.mp hc
      have : addr.toNat = d := by omega
      simp [Except.map, h0, h1, this]
  obtain ⟨m, raw⟩ := o
  cases m with
  | immediate => simp [State.readOperand, State.ReadsAs, eq_comm]
  | position => exact key _
  | relative => exact key _

/-- A write operand resolves to the cell `d` as R62 says. -/
theorem State.writeOperand_ok_iff {s : State} {k : Nat} {o : Operand} {d : Nat} :
    s.writeOperand k o = .ok d ↔ s.WritesTo o d := by
  obtain ⟨m, raw⟩ := o
  cases m with
  | immediate => simp [State.writeOperand, State.WritesTo]
  | position => exact State.checkAddr_ok_iff
  | relative => exact State.checkAddr_ok_iff

/-- The fault of a read operand is OutOfBounds, with the address it computed. -/
theorem State.readOperand_error {s : State} {k : Nat} {o : Operand} {e : FaultInfo}
    (h : s.readOperand k o = .error e) :
    ∃ addr, e = { kind := .outOfBounds, operand := some k, raw := some o.raw, addr := some addr } ∧
      ¬ s.inBounds addr := by
  have key : ∀ addr : Int, (s.checkAddr k o.raw addr).map s.mem.read = .error e →
      e = { kind := .outOfBounds, operand := some k, raw := some o.raw, addr := some addr } ∧
        ¬ s.inBounds addr := by
    intro addr h
    rcases hc : s.checkAddr k o.raw addr with e' | d
    · rw [hc] at h
      cases h
      exact State.checkAddr_error hc
    · rw [hc] at h; cases h
  obtain ⟨m, raw⟩ := o
  cases m with
  | immediate => cases h
  | position => exact ⟨_, key _ h⟩
  | relative => exact ⟨_, key _ h⟩

/-- The fault of a write operand: IllegalWriteMode for immediate mode, else OutOfBounds. -/
theorem State.writeOperand_error {s : State} {k : Nat} {o : Operand} {e : FaultInfo}
    (h : s.writeOperand k o = .error e) :
    (o.mode = .immediate ∧ e = { kind := .illegalWriteMode, operand := some k }) ∨
      ∃ addr, e = { kind := .outOfBounds, operand := some k, raw := some o.raw, addr := some addr } ∧
        ¬ s.inBounds addr := by
  obtain ⟨m, raw⟩ := o
  cases m with
  | immediate => exact .inl ⟨rfl, by simpa [State.writeOperand] using h.symm⟩
  | position => exact .inr ⟨_, State.checkAddr_error h⟩
  | relative => exact .inr ⟨_, State.checkAddr_error h⟩

theorem State.WritesTo.lt_memLen {s : State} {o : Operand} {d : Nat} (h : s.WritesTo o d) :
    d < s.memLen.val := by
  obtain ⟨m, raw⟩ := o
  cases m with
  | immediate => exact h.elim
  | position => obtain ⟨h0, h1, h2⟩ := h; omega
  | relative => obtain ⟨h0, h1, h2⟩ := h; omega

theorem State.WritesTo.writable {s : State} {o : Operand} {d : Nat} (h : s.WritesTo o d) :
    o.writable = true := by
  obtain ⟨m, raw⟩ := o
  cases m with
  | immediate => exact h.elim
  | position => rfl
  | relative => rfl

theorem checkWriteMode_ok {k : Nat} {d : Operand} (h : d.writable = true) :
    checkWriteMode k d = .ok () := if_pos h

/-! ### The shape of a fault -/

/-- The shape of every fault raised at `s`: OutOfBounds exactly when there is an address, which is then out
of bounds; a raw operand only beside its index and address; ArithmeticOverflow only under the policy fault. -/
structure FaultInfo.Legal (s : State) (e : FaultInfo) : Prop where
  addr_iff : e.kind = .outOfBounds ↔ e.addr.isSome
  addr_out : ∀ a, e.addr = some a → ¬ s.inBounds a
  raw_with : e.raw.isSome → e.operand.isSome ∧ e.addr.isSome
  overflow : e.kind = .arithmeticOverflow → s.config.overflowPolicy = .fault

/-- A fault without an address or a raw operand has the shape if its kind is neither of two. -/
theorem FaultInfo.Legal.plain {s : State} {e : FaultInfo} (ha : e.addr = none) (hr : e.raw = none)
    (h1 : e.kind ≠ .outOfBounds) (h2 : e.kind ≠ .arithmeticOverflow) : e.Legal s :=
  ⟨by simp [ha, h1], by simp [ha], by simp [hr], fun h => absurd h h2⟩

/-- An OutOfBounds fault at an address that is out of bounds has the shape. -/
theorem FaultInfo.Legal.outOfBounds {s : State} {k : Nat} {raw : Option Word} {addr : Int}
    (h : ¬ s.inBounds addr) : FaultInfo.Legal s ⟨.outOfBounds, some k, raw, some addr⟩ :=
  ⟨by simp, by rintro a ⟨⟩; exact h, by simp, by simp⟩

theorem State.readOperand_legal {s : State} {k : Nat} {o : Operand} {e : FaultInfo}
    (h : s.readOperand k o = .error e) : e.Legal s := by
  obtain ⟨addr, rfl, hb⟩ := State.readOperand_error h
  exact .outOfBounds hb

theorem State.writeOperand_legal {s : State} {k : Nat} {o : Operand} {e : FaultInfo}
    (h : s.writeOperand k o = .error e) : e.Legal s := by
  rcases State.writeOperand_error h with ⟨-, rfl⟩ | ⟨addr, rfl, hb⟩
  · exact .plain rfl rfl nofun nofun
  · exact .outOfBounds hb

theorem checkWriteMode_legal {s : State} {k : Nat} {d : Operand} {e : FaultInfo}
    (h : checkWriteMode k d = .error e) : e.Legal s := by
  unfold checkWriteMode at h
  split at h
  · cases h
  · cases h; exact .plain rfl rfl nofun nofun

theorem toI64_legal {s : State} {v : Int} {e : FaultInfo}
    (h : toI64 s.config.overflowPolicy v = .error e) : e.Legal s := by
  obtain ⟨rfl, hp, -⟩ := toI64_error h
  exact ⟨by simp, by simp, by simp, fun _ => hp⟩

theorem State.operandFault?_legal {s : State} {k : Nat} {role : Role} {o : Operand} {e : FaultInfo}
    (h : s.operandFault? k role o = some e) : e.Legal s := by
  cases role with
  | read =>
    rcases hr : s.readOperand k o with e' | v
    · simp only [State.operandFault?, hr, Option.some.injEq] at h
      exact h ▸ State.readOperand_legal hr
    · simp [State.operandFault?, hr] at h
  | write =>
    rcases hw : s.writeOperand k o with e' | v
    · simp only [State.operandFault?, hw, Option.some.injEq] at h
      exact h ▸ State.writeOperand_legal hw
    · simp [State.operandFault?, hw] at h

/-! ### The operand shapes -/

/-- Everything format RRW can answer: the body on resolved operands, or a fault taken. -/
theorem State.withRRW_cases (s : State) (a b d : Operand)
    (body : Word → Word → Nat → Except FaultInfo State) :
    (∃ v0 v1 e, s.ReadsAs a v0 ∧ s.ReadsAs b v1 ∧ s.WritesTo d e ∧
        s.withRRW a b d body = s.finish (body v0 v1 e)) ∨
      ∃ info, info.Legal s ∧ s.withRRW a b d body = .next (s.takeFault info) := by
  unfold State.withRRW
  rcases hm : checkWriteMode 2 d with e | u
  · exact .inr ⟨e, checkWriteMode_legal hm, rfl⟩
  rcases ha : s.readOperand 0 a with e | v0
  · exact .inr ⟨e, State.readOperand_legal ha, rfl⟩
  rcases hb : s.readOperand 1 b with e | v1
  · exact .inr ⟨e, State.readOperand_legal hb, rfl⟩
  rcases hd : s.writeOperand 2 d with e | e
  · exact .inr ⟨e, State.writeOperand_legal hd, rfl⟩
  · exact .inl ⟨v0, v1, e, State.readOperand_ok_iff.mp ha, State.readOperand_ok_iff.mp hb,
      State.writeOperand_ok_iff.mp hd, rfl⟩

/-- Format RRW on operands that resolve. -/
theorem State.withRRW_ok {s : State} {a b d : Operand} {v0 v1 : Word} {e : Nat}
    (ha : s.ReadsAs a v0) (hb : s.ReadsAs b v1) (hd : s.WritesTo d e)
    (body : Word → Word → Nat → Except FaultInfo State) :
    s.withRRW a b d body = s.finish (body v0 v1 e) := by
  unfold State.withRRW
  rw [checkWriteMode_ok hd.writable, State.readOperand_ok_iff.mpr ha, State.readOperand_ok_iff.mpr hb,
    State.writeOperand_ok_iff.mpr hd]
  rfl

/-- Everything format RR can answer. -/
theorem State.withRR_cases (s : State) (a b : Operand) (body : Word → Word → Except FaultInfo State) :
    (∃ v0 v1, s.ReadsAs a v0 ∧ s.ReadsAs b v1 ∧ s.withRR a b body = s.finish (body v0 v1)) ∨
      ∃ info, info.Legal s ∧ s.withRR a b body = .next (s.takeFault info) := by
  unfold State.withRR
  rcases ha : s.readOperand 0 a with e | v0
  · exact .inr ⟨e, State.readOperand_legal ha, rfl⟩
  rcases hb : s.readOperand 1 b with e | v1
  · exact .inr ⟨e, State.readOperand_legal hb, rfl⟩
  · exact .inl ⟨v0, v1, State.readOperand_ok_iff.mp ha, State.readOperand_ok_iff.mp hb, rfl⟩

/-- Format RR on operands that resolve. -/
theorem State.withRR_ok {s : State} {a b : Operand} {v0 v1 : Word} (ha : s.ReadsAs a v0)
    (hb : s.ReadsAs b v1) (body : Word → Word → Except FaultInfo State) :
    s.withRR a b body = s.finish (body v0 v1) := by
  unfold State.withRR
  rw [State.readOperand_ok_iff.mpr ha, State.readOperand_ok_iff.mpr hb]
  rfl

/-- Everything format W can answer. -/
theorem State.withW_cases (s : State) (d : Operand) (body : Nat → Except FaultInfo State) :
    (∃ e, s.WritesTo d e ∧ s.withW d body = s.finish (body e)) ∨
      ∃ info, info.Legal s ∧ s.withW d body = .next (s.takeFault info) := by
  unfold State.withW
  rcases hm : checkWriteMode 0 d with e | u
  · exact .inr ⟨e, checkWriteMode_legal hm, rfl⟩
  rcases hd : s.writeOperand 0 d with e | e
  · exact .inr ⟨e, State.writeOperand_legal hd, rfl⟩
  · exact .inl ⟨e, State.writeOperand_ok_iff.mp hd, rfl⟩

/-- Format W on an operand that resolves. -/
theorem State.withW_ok {s : State} {d : Operand} {e : Nat} (hd : s.WritesTo d e)
    (body : Nat → Except FaultInfo State) : s.withW d body = s.finish (body e) := by
  unfold State.withW
  rw [checkWriteMode_ok hd.writable, State.writeOperand_ok_iff.mpr hd]
  rfl

/-- Everything format R can answer. -/
theorem State.withR_cases (s : State) (a : Operand) (body : Word → Except FaultInfo State) :
    (∃ v0, s.ReadsAs a v0 ∧ s.withR a body = s.finish (body v0)) ∨
      ∃ info, info.Legal s ∧ s.withR a body = .next (s.takeFault info) := by
  unfold State.withR
  rcases ha : s.readOperand 0 a with e | v0
  · exact .inr ⟨e, State.readOperand_legal ha, rfl⟩
  · exact .inl ⟨v0, State.readOperand_ok_iff.mp ha, rfl⟩

/-- Format R on an operand that resolves. -/
theorem State.withR_ok {s : State} {a : Operand} {v0 : Word} (ha : s.ReadsAs a v0)
    (body : Word → Except FaultInfo State) : s.withR a body = s.finish (body v0) := by
  unfold State.withR
  rw [State.readOperand_ok_iff.mpr ha]
  rfl

end Sys2Proof.Machine
end

