-- ==== Sys2Proof/Laws/Fetch.lean ====
section
/-! SUPPORT. The cells a fetch sees, and the faults of fetch and decode (spec 20_memory.md R23, 40_dispatch.md
R57 to R60). -/

namespace Sys2Proof.Machine

theorem State.cell?_eq_some_iff {s : State} {a : Int} {w : Word} :
    s.cell? a = some w ↔ 0 ≤ a ∧ a < s.memLen.val ∧ s.mem.read a.toNat = w := by
  unfold State.cell?
  split
  · rename_i h; simp [h.1, h.2]
  · rename_i h
    simp only [reduceCtorEq, false_iff]
    rintro ⟨h0, h1, -⟩
    exact h ⟨h0, h1⟩

theorem State.cell?_eq_none_iff {s : State} {a : Int} : s.cell? a = none ↔ ¬ s.inBounds a := by
  unfold State.cell?
  split <;> simp_all

/-- The cells from `a` on are the cells of memory, as far as they are in bounds. -/
theorem State.cellsFrom_getElem? {s : State} {n k : Nat} {a : Int} {w : Word} (hk : k < n) :
    (s.cellsFrom a n)[k]? = some w ↔
      0 ≤ a ∧ a + k < s.memLen.val ∧ s.mem.read (a + k).toNat = w := by
  induction n generalizing a k with
  | zero => omega
  | succ n ih =>
    unfold State.cellsFrom
    rcases hc : s.cell? a with _ | v
    · have hb := State.cell?_eq_none_iff.mp hc
      simp only [List.getElem?_nil, reduceCtorEq, false_iff]
      rintro ⟨h0, h1, -⟩
      exact hb ⟨h0, by omega⟩
    · obtain ⟨h0, h1, h2⟩ := State.cell?_eq_some_iff.mp hc
      cases k with
      | zero => simp [h0, h1, h2]
      | succ k =>
        simp only [List.getElem?_cons_succ]
        rw [ih (by omega), show a + 1 + (k : Int) = a + ((k + 1 : Nat) : Int) by push_cast; omega]
        constructor
        · rintro ⟨_, h4, h5⟩; exact ⟨h0, h4, h5⟩
        · rintro ⟨_, h4, h5⟩; exact ⟨by omega, h4, h5⟩

theorem State.cellsFrom_length_le (s : State) (a : Int) (n : Nat) : (s.cellsFrom a n).length ≤ n := by
  induction n generalizing a with
  | zero => simp [State.cellsFrom]
  | succ n ih =>
    unfold State.cellsFrom
    split
    · simp
    · have := ih (a + 1); simp only [List.length_cons]; omega

/-- The operand cells of an executed instruction are in bounds, so its advance is exact (R15, R65). -/
theorem State.Executes.next_inBounds {s : State} {i : Instr} (h : s.Executes i) :
    0 ≤ s.ip.toInt ∧ s.ip.toInt + i.code.nops < s.memLen.val := by
  obtain ⟨-, h⟩ := h
  obtain ⟨w, rest, ms, hcells, hw, ho⟩ := decode_ok_iff.mp h
  have hlen : i.code.nops ≤ rest.length := by
    have := congrArg List.length ho
    rw [Instr.operands_length, List.length_zipWith] at this
    omega
  have hl := s.cellsFrom_length_le s.ip.toInt longestInstr
  have hfl : s.fetchCells.length = rest.length + 1 := by rw [hcells]; rfl
  have hk : i.code.nops < s.fetchCells.length := by omega
  have := (State.cellsFrom_getElem? (s := s) (a := s.ip.toInt) (n := longestInstr)
    (by unfold State.fetchCells at hk; omega)).mp (List.getElem?_eq_getElem hk)
  exact ⟨this.1, this.2.1⟩

/-- The advance of an executed instruction does not wrap. -/
theorem State.Executes.toInt_next {s : State} {i : Instr} (h : s.Executes i) :
    (BitVec.ofInt 64 (s.ip.toInt + 1 + i.code.nops)).toInt = s.ip.toInt + 1 + i.code.nops := by
  have := h.next_inBounds
  have := s.memLen.isLt
  exact toInt_ofInt_of_fitsI64 ⟨by omega, by omega⟩

/-! ### The faults of fetch and decode -/

/-- Where the cells end before the limit, the next one is out of bounds. -/
theorem State.cellsFrom_next_out {s : State} {n : Nat} {a : Int} (h : (s.cellsFrom a n).length < n) :
    ¬ s.inBounds (a + (s.cellsFrom a n).length) := by
  induction n generalizing a with
  | zero => simp at h
  | succ n ih =>
    unfold State.cellsFrom at h ⊢
    rcases hc : s.cell? a with _ | v
    · simpa [hc] using State.cell?_eq_none_iff.mp hc
    · simp only [hc, List.length_cons, Nat.add_lt_add_iff_right] at h ⊢
      have := ih h
      rwa [show a + ((s.cellsFrom (a + 1) n).length + 1 : Nat)
        = a + 1 + ((s.cellsFrom (a + 1) n).length : Int) by push_cast; omega]

/-- The fault of a truncated instruction: one of its operands', or the missing cell's. -/
theorem State.truncatedFault_legal {s : State} {k : Nat} {present : List (Role × Operand)}
    (h : ¬ s.inBounds (s.ip.toInt + 1 + (k + present.length : Nat))) :
    (s.truncatedFault k present).Legal s := by
  induction present generalizing k with
  | nil => exact .outOfBounds (by simpa using h)
  | cons p rest ih =>
    unfold State.truncatedFault
    rcases hf : s.operandFault? k p.1 p.2 with _ | e
    · exact ih (by rwa [show k + 1 + rest.length = k + (rest.length + 1) by omega])
    · exact State.operandFault?_legal hf

/-- A truncated instruction: the operands present are those of the cells that are there. -/
theorem decode_truncated {strict : Bool} {cells : List Word} {present : List (Role × Operand)}
    (h : decode strict cells = .error (.truncated present)) :
    cells.length = present.length + 1 ∧ cells.length < 4 := by
  unfold decode at h
  cases cells with
  | nil => cases h
  | cons w rest =>
    simp only at h
    rcases hw : decodeOpcode strict w with e | ⟨c, ms⟩
    · rw [hw] at h
      simp only [Except.error.injEq] at h
      subst h
      exact absurd hw (decodeOpcode_ne_truncated strict w present)
    · rw [hw] at h
      simp only at h
      rcases hb : c.build (List.zipWith Operand.mk ms rest) with _ | i
      · rw [hb] at h
        simp only [Except.error.injEq, Reject.truncated.injEq] at h
        have hms := decodeOpcode_length hw
        have hlt : rest.length < c.nops := by
          by_contra hge
          obtain ⟨i, hi⟩ := Code.build_isSome (c := c) (ops := List.zipWith Operand.mk ms rest)
            (by rw [List.length_zipWith]; omega)
          rw [hb] at hi
          cases hi
        have hc := c.nops_lt
        have hr : c.roles.length = c.nops := rfl
        have := congrArg List.length h
        rw [List.length_zip, List.length_zipWith] at this
        simp only [List.length_cons]
        omega
      · rw [hb] at h; cases h

/-- Every fault of fetch or decode has the shape. -/
theorem State.rejectFault_legal {s : State} {strict : Bool} {r : Reject}
    (h : decode strict s.fetchCells = .error r) : (s.rejectFault r).Legal s := by
  cases r with
  | noWord =>
    have : s.fetchCells = [] := by
      rcases hc : s.fetchCells with _ | ⟨w, rest⟩
      · rfl
      · exact absurd (hc ▸ h) (decode_cons_ne_noWord strict w rest)
    have hlt : (s.cellsFrom s.ip.toInt longestInstr).length < longestInstr := by
      show s.fetchCells.length < 4; rw [this]; decide
    have := State.cellsFrom_next_out hlt
    have h0 : (s.cellsFrom s.ip.toInt longestInstr).length = 0 := by
      show s.fetchCells.length = 0; rw [‹s.fetchCells = []›]; rfl
    rw [h0] at this
    exact ⟨by simp [State.rejectFault], by rintro a ⟨⟩; simpa using this, by simp [State.rejectFault],
      by simp [State.rejectFault]⟩
  | illegalOpcode => exact .plain rfl rfl nofun nofun
  | illegalParameterMode k => exact .plain rfl rfl nofun nofun
  | illegalWriteMode k => exact .plain rfl rfl nofun nofun
  | truncated present =>
    obtain ⟨h1, h2⟩ := decode_truncated h
    refine State.truncatedFault_legal ?_
    have := State.cellsFrom_next_out (s := s) (a := s.ip.toInt) (n := longestInstr) h2
    rw [show (s.cellsFrom s.ip.toInt longestInstr).length = present.length + 1 from h1] at this
    rwa [show s.ip.toInt + 1 + ((0 + present.length : Nat) : Int)
      = s.ip.toInt + ((present.length + 1 : Nat) : Int) by push_cast; omega]

end Sys2Proof.Machine
end

