-- ==== Sys2Proof/Laws/Exec.lean ====
section
/-! SUPPORT. Everything an instruction and a step can do, said once (spec 40_dispatch.md R55, R56, R64 to R66). -/

namespace Sys2Proof.Machine

/-- `Effect i s t`: executing `i` at `s` may leave `t`. One constructor per row of the pseudocode of files 41
to 46, and one for every fault. -/
inductive Effect : Instr → State → State → Prop where
  | faults {i : Instr} {s : State} {info : FaultInfo} :
      info.Legal s → Effect i s (s.takeFault info)
  | adds {a b d : Operand} {s : State} {v0 v1 r : Word} {e : Nat} :
      s.ReadsAs a v0 → s.ReadsAs b v1 → s.WritesTo d e →
      toI64 s.config.overflowPolicy (v0.toInt + v1.toInt) = .ok r →
      Effect (.add a b d) s ((s.store e r).advance 3)
  | multiplies {a b d : Operand} {s : State} {v0 v1 r : Word} {e : Nat} :
      s.ReadsAs a v0 → s.ReadsAs b v1 → s.WritesTo d e →
      toI64 s.config.overflowPolicy (v0.toInt * v1.toInt) = .ok r →
      Effect (.mul a b d) s ((s.store e r).advance 3)
  | waits {d : Operand} {s : State} {e : Nat} :
      s.WritesTo d e → s.pending = none → Effect (.inp d) s (s.report .needsInput)
  | consumes {d : Operand} {s : State} {v : Word} {e : Nat} :
      s.WritesTo d e → s.pending = some v →
      Effect (.inp d) s ({ s.store e v with pending := none }.advance 1)
  | outputs {a : Operand} {s : State} {v0 : Word} :
      s.ReadsAs a v0 → Effect (.out a) s ((s.advance 1).report (.output v0))
  | jumpsTrue {cond target : Operand} {s : State} {v0 v1 : Word} :
      s.ReadsAs cond v0 → s.ReadsAs target v1 →
      Effect (.jt cond target) s (if conditionTrue v0 then s.jump v1 else s.advance 2)
  | jumpsFalse {cond target : Operand} {s : State} {v0 v1 : Word} :
      s.ReadsAs cond v0 → s.ReadsAs target v1 →
      Effect (.jf cond target) s (if conditionTrue v0 then s.advance 2 else s.jump v1)
  | lessThan {a b d : Operand} {s : State} {v0 v1 : Word} {e : Nat} :
      s.ReadsAs a v0 → s.ReadsAs b v1 → s.WritesTo d e →
      Effect (.lt a b d) s ((s.store e (truthWord (lessThan v0 v1))).advance 3)
  | equals {a b d : Operand} {s : State} {v0 v1 : Word} {e : Nat} :
      s.ReadsAs a v0 → s.ReadsAs b v1 → s.WritesTo d e →
      Effect (.eq a b d) s ((s.store e (truthWord (equalTo v0 v1))).advance 3)
  | rebases {a : Operand} {s : State} {v0 r : Word} :
      s.ReadsAs a v0 → toI64 s.config.overflowPolicy (s.rb.toInt + v0.toInt) = .ok r →
      Effect (.arb a) s ({ s with rb := r }.advance 1)
  | halts {s : State} : Effect .hlt s ({ s with status := .halted }.report .halted)

/-- An instruction always answers a next state, and its effect is one of the cases. -/
theorem exec_effect (i : Instr) (s : State) : ∃ t, exec i s = .next t ∧ Effect i s t := by
  cases i with
  | add a b d =>
    show ∃ t, execAdd a b d s = _ ∧ _
    unfold execAdd
    rcases s.withRRW_cases a b d _ with ⟨v0, v1, e, ha, hb, hd, h⟩ | ⟨info, hl, h⟩ <;> rw [h]
    · rcases hr : toI64 s.config.overflowPolicy (v0.toInt + v1.toInt) with x | r
      · exact ⟨_, rfl, .faults (toI64_legal hr)⟩
      · exact ⟨_, rfl, .adds ha hb hd hr⟩
    · exact ⟨_, rfl, .faults hl⟩
  | mul a b d =>
    show ∃ t, execMul a b d s = _ ∧ _
    unfold execMul
    rcases s.withRRW_cases a b d _ with ⟨v0, v1, e, ha, hb, hd, h⟩ | ⟨info, hl, h⟩ <;> rw [h]
    · rcases hr : toI64 s.config.overflowPolicy (v0.toInt * v1.toInt) with x | r
      · exact ⟨_, rfl, .faults (toI64_legal hr)⟩
      · exact ⟨_, rfl, .multiplies ha hb hd hr⟩
    · exact ⟨_, rfl, .faults hl⟩
  | inp d =>
    show ∃ t, execIn d s = _ ∧ _
    unfold execIn
    rcases s.withW_cases d _ with ⟨e, hd, h⟩ | ⟨info, hl, h⟩ <;> rw [h]
    · rcases hp : s.pending with _ | v
      · exact ⟨_, rfl, .waits hd hp⟩
      · exact ⟨_, rfl, .consumes hd hp⟩
    · exact ⟨_, rfl, .faults hl⟩
  | out a =>
    show ∃ t, execOut a s = _ ∧ _
    unfold execOut
    rcases s.withR_cases a _ with ⟨v0, ha, h⟩ | ⟨info, hl, h⟩ <;> rw [h]
    · exact ⟨_, rfl, .outputs ha⟩
    · exact ⟨_, rfl, .faults hl⟩
  | jt cond target =>
    show ∃ t, execJt cond target s = _ ∧ _
    unfold execJt
    rcases s.withRR_cases cond target _ with ⟨v0, v1, ha, hb, h⟩ | ⟨info, hl, h⟩ <;> rw [h]
    · exact ⟨_, rfl, .jumpsTrue ha hb⟩
    · exact ⟨_, rfl, .faults hl⟩
  | jf cond target =>
    show ∃ t, execJf cond target s = _ ∧ _
    unfold execJf
    rcases s.withRR_cases cond target _ with ⟨v0, v1, ha, hb, h⟩ | ⟨info, hl, h⟩ <;> rw [h]
    · exact ⟨_, rfl, .jumpsFalse ha hb⟩
    · exact ⟨_, rfl, .faults hl⟩
  | lt a b d =>
    show ∃ t, execLt a b d s = _ ∧ _
    unfold execLt
    rcases s.withRRW_cases a b d _ with ⟨v0, v1, e, ha, hb, hd, h⟩ | ⟨info, hl, h⟩ <;> rw [h]
    · exact ⟨_, rfl, .lessThan ha hb hd⟩
    · exact ⟨_, rfl, .faults hl⟩
  | eq a b d =>
    show ∃ t, execEq a b d s = _ ∧ _
    unfold execEq
    rcases s.withRRW_cases a b d _ with ⟨v0, v1, e, ha, hb, hd, h⟩ | ⟨info, hl, h⟩ <;> rw [h]
    · exact ⟨_, rfl, .equals ha hb hd⟩
    · exact ⟨_, rfl, .faults hl⟩
  | arb a =>
    show ∃ t, execArb a s = _ ∧ _
    unfold execArb
    rcases s.withR_cases a _ with ⟨v0, ha, h⟩ | ⟨info, hl, h⟩ <;> rw [h]
    · rcases hr : toI64 s.config.overflowPolicy (s.rb.toInt + v0.toInt) with x | r
      · exact ⟨_, rfl, .faults (toI64_legal hr)⟩
      · exact ⟨_, rfl, .rebases ha hr⟩
    · exact ⟨_, rfl, .faults hl⟩
  | hlt => exact ⟨_, rfl, .halts⟩

/-- The effect of an instruction that answered `t`. -/
theorem exec_next {i : Instr} {s t : State} (h : exec i s = .next t) : Effect i s t := by
  obtain ⟨t', h', he⟩ := exec_effect i s
  cases h.symm.trans h'
  exact he

/-! ### The step -/

theorem step_of_halted {s : State} (h : s.status = .halted) : step s = .next (s.report .halted) := by
  unfold step; split <;> simp_all [haltedStep]

theorem step_of_faulted {s : State} {f : FaultRecord} (h : s.status = .faulted f) :
    step s = .next (s.report (.fault f)) := by
  unfold step; split <;> simp_all [faultedStep]

theorem step_of_fetch_ok {s : State} {i : Instr} (h : s.Executes i) : step s = exec i s := by
  unfold step; split <;> simp_all [State.Executes, State.fetch]

theorem step_of_reject {s : State} {r : Reject} (hs : s.status = .running)
    (h : decode s.config.strictModeDigits s.fetchCells = .error r) :
    step s = .next (s.takeFault (s.rejectFault r)) := by
  unfold step; split <;> simp_all [State.fetch]

/-- A step always answers a next state, in one of four ways. -/
theorem step_effect (s : State) : ∃ t, step s = .next t ∧
    ((s.status = .halted ∧ t = s.report .halted) ∨
      (∃ f, s.status = .faulted f ∧ t = s.report (.fault f)) ∨
      (s.status = .running ∧ ∃ info, info.Legal s ∧ t = s.takeFault info) ∨
      ∃ i, s.Executes i ∧ exec i s = .next t ∧ Effect i s t) := by
  unfold step
  rcases hs : s.status with _ | _ | f
  · rcases hd : decode s.config.strictModeDigits s.fetchCells with r | i
    · exact ⟨_, by simp [State.fetch, hd], .inr (.inr (.inl ⟨rfl, _, State.rejectFault_legal hd, rfl⟩))⟩
    · obtain ⟨t, h, he⟩ := exec_effect i s
      exact ⟨t, by simp [State.fetch, hd, h], .inr (.inr (.inr ⟨i, ⟨hs, hd⟩, h, he⟩))⟩
  · exact ⟨_, rfl, .inl ⟨rfl, rfl⟩⟩
  · exact ⟨_, rfl, .inr (.inl ⟨f, rfl, rfl⟩)⟩

/-- The four ways of a step that answered `t`. -/
theorem step_next {s t : State} (h : step s = .next t) :
    (s.status = .halted ∧ t = s.report .halted) ∨
      (∃ f, s.status = .faulted f ∧ t = s.report (.fault f)) ∨
      (s.status = .running ∧ ∃ info, info.Legal s ∧ t = s.takeFault info) ∨
      ∃ i, s.Executes i ∧ exec i s = .next t ∧ Effect i s t := by
  obtain ⟨t', h', hc⟩ := step_effect s
  cases h.symm.trans h'
  exact hc

end Sys2Proof.Machine
end

