-- ==== Sys2Proof/Laws/Memory.lean ====
section
/-! SUPPORT. The laws of memory: a write is read back, leaves every other cell alone, and keeps the
canonical form (spec 20_memory.md R26). -/

namespace Sys2Proof.Machine

@[simp] theorem Memory.read_nil (a : Nat) : Memory.read [] a = 0 := rfl

theorem Memory.read_cons (p : Nat × Word) (m : Memory) (a : Nat) :
    Memory.read (p :: m) a = if a = p.1 then p.2 else m.read a := rfl

/-- A cell that no pair lists reads 0. -/
theorem Memory.read_unlisted {m : Memory} {a : Nat} (h : ∀ p ∈ m, p.1 ≠ a) : m.read a = 0 := by
  induction m with
  | nil => rfl
  | cons p m ih =>
    rw [Memory.read_cons, if_neg (h p (by simp)).symm]
    exact ih fun q hq => h q (by simp [hq])

/-- A write leaves every other cell as it was, in any memory. -/
theorem Memory.read_write_other {m : Memory} {a b : Nat} (v : Word) (h : b ≠ a) :
    (m.write a v).read b = m.read b := by
  induction m with
  | nil => unfold Memory.write; split <;> simp [Memory.read_cons, h]
  | cons p m ih =>
    unfold Memory.write
    split
    · split <;> simp [Memory.read_cons, h]
    · split
      · subst a; split <;> simp [Memory.read_cons, h]
      · simp [Memory.read_cons, ih]

theorem Memory.wf_tail {p : Nat × Word} {m : Memory} (h : Memory.wf (p :: m)) : Memory.wf m :=
  ⟨(List.pairwise_cons.mp h.1).2, fun q hq => h.2 q (by simp [hq])⟩

theorem Memory.wf_head_lt {p : Nat × Word} {m : Memory} (h : Memory.wf (p :: m)) :
    ∀ q ∈ m, p.1 < q.1 := (List.pairwise_cons.mp h.1).1

theorem Memory.wf_cons {p : Nat × Word} {m : Memory} (hp : p.2 ≠ 0) (hlt : ∀ q ∈ m, p.1 < q.1)
    (h : Memory.wf m) : Memory.wf (p :: m) :=
  ⟨List.pairwise_cons.mpr ⟨hlt, h.1⟩, fun q hq => by
    rcases List.mem_cons.mp hq with rfl | hq
    · exact hp
    · exact h.2 q hq⟩

/-- A write is read back. -/
theorem Memory.read_write_same {m : Memory} (h : m.wf) (a : Nat) (v : Word) :
    (m.write a v).read a = v := by
  induction m with
  | nil => unfold Memory.write; split <;> simp_all [Memory.read_cons]
  | cons p m ih =>
    have hlt := Memory.wf_head_lt h
    unfold Memory.write
    split
    · rename_i hap
      split
      · rename_i hv
        rw [hv]
        refine Memory.read_unlisted fun q hq => ?_
        rcases List.mem_cons.mp hq with rfl | hq
        · exact (Nat.ne_of_lt hap).symm
        · have := hlt q hq; omega
      · simp [Memory.read_cons]
    · split
      · rename_i hap
        split
        · rename_i hv
          rw [hv]
          exact Memory.read_unlisted fun q hq => by have := hlt q hq; omega
        · simp [Memory.read_cons]
      · rename_i hap
        simp [Memory.read_cons, hap, ih (Memory.wf_tail h)]

/-- What a write lists: pairs that were there, and the written cell. -/
theorem Memory.mem_write {m : Memory} {a : Nat} {v : Word} {q : Nat × Word} (h : q ∈ m.write a v) :
    q ∈ m ∨ q = (a, v) ∧ v ≠ 0 := by
  induction m with
  | nil => unfold Memory.write at h; split at h <;> simp_all
  | cons p m ih =>
    unfold Memory.write at h
    split at h
    · split at h
      · exact .inl h
      · rcases List.mem_cons.mp h with rfl | h
        · exact .inr ⟨rfl, ‹_›⟩
        · exact .inl h
    · split at h
      · split at h
        · exact .inl (by simp [h])
        · rcases List.mem_cons.mp h with rfl | h
          · exact .inr ⟨rfl, ‹_›⟩
          · exact .inl (by simp [h])
      · rcases List.mem_cons.mp h with rfl | h
        · exact .inl (by simp)
        · rcases ih h with h | h
          · exact .inl (by simp [h])
          · exact .inr h

/-- A write keeps the canonical form. -/
theorem Memory.write_wf {m : Memory} (h : m.wf) (a : Nat) (v : Word) : (m.write a v).wf := by
  induction m with
  | nil => unfold Memory.write; split <;> simp_all [Memory.wf]
  | cons p m ih =>
    have hlt := Memory.wf_head_lt h
    unfold Memory.write
    split
    · rename_i hap
      split
      · exact h
      · rename_i hv
        refine Memory.wf_cons hv (fun q hq => ?_) h
        rcases List.mem_cons.mp hq with rfl | hq
        · exact hap
        · exact Nat.lt_trans hap (hlt q hq)
    · split
      · rename_i hap
        split
        · exact Memory.wf_tail h
        · rename_i hv
          exact Memory.wf_cons hv (fun q hq => hap ▸ hlt q hq) (Memory.wf_tail h)
      · rename_i h1 h2
        refine Memory.wf_cons (h.2 p (by simp)) (fun q hq => ?_) (ih (Memory.wf_tail h))
        rcases Memory.mem_write hq with hq | ⟨rfl, _⟩
        · exact hlt q hq
        · exact Nat.lt_of_le_of_ne (Nat.le_of_not_lt h1) (Ne.symm h2)

/-- Writing cells one after the other keeps the canonical form. -/
theorem Memory.writeCells_wf {m : Memory} (h : m.wf) (a : Nat) (ws : List Word) :
    (m.writeCells a ws).wf := by
  induction ws generalizing m a with
  | nil => exact h
  | cons w ws ih => exact ih (Memory.write_wf h a w) (a + 1)

/-- The pairs of `ofCells a ws` list addresses of the cells, with values that are not 0. -/
theorem Memory.mem_ofCells {a : Nat} {ws : List Word} {p : Nat × Word}
    (h : p ∈ Memory.ofCells a ws) : a ≤ p.1 ∧ p.1 < a + ws.length ∧ p.2 ≠ 0 := by
  induction ws generalizing a with
  | nil => simp [Memory.ofCells] at h
  | cons w ws ih =>
    simp only [List.length_cons]
    unfold Memory.ofCells at h
    split at h
    · obtain ⟨h1, h2, h3⟩ := ih h
      exact ⟨by omega, by omega, h3⟩
    · rcases List.mem_cons.mp h with rfl | h
      · exact ⟨Nat.le_refl a, by show a < a + (ws.length + 1); omega, ‹_›⟩
      · obtain ⟨h1, h2, h3⟩ := ih h
        exact ⟨by omega, by omega, h3⟩

/-- A memory made of cells is in canonical form. -/
theorem Memory.ofCells_wf (a : Nat) (ws : List Word) : (Memory.ofCells a ws).wf := by
  induction ws generalizing a with
  | nil => simp [Memory.ofCells, Memory.wf]
  | cons w ws ih =>
    unfold Memory.ofCells
    split
    · exact ih _
    · exact Memory.wf_cons ‹_› (fun q hq => (Memory.mem_ofCells hq).1) (ih _)

/-- A memory made of cells holds the cells. -/
theorem Memory.read_ofCells (a : Nat) (ws : List Word) (k : Nat) (h : k < ws.length) :
    (Memory.ofCells a ws).read (a + k) = ws[k] := by
  induction ws generalizing a k with
  | nil => simp at h
  | cons w ws ih =>
    unfold Memory.ofCells
    cases k with
    | zero =>
      split
      · rename_i hw
        rw [Memory.read_unlisted fun p hp => by have := (Memory.mem_ofCells hp).1; omega]
        simp [hw]
      · simp [Memory.read_cons]
    | succ k =>
      have := ih (a + 1) k (by simpa using h)
      rw [show a + (k + 1) = a + 1 + k by omega]
      split <;> simp_all [Memory.read_cons]
      omega

end Sys2Proof.Machine
end

