-- ==== Sys2Proof/Laws/PerInstr.lean ====
section
/-! SUPPORT. Per instruction: the opcode word that R51 builds is read back by R58 and R59, under either value
of the strict parameter. -/

namespace Sys2Proof.Laws

/-- The opcode word of a well-formed instruction decodes to its code and modes. -/
def OpcodeWord.Statement (i : Instr) : Prop :=
  i.wf = true → ∀ strict, decodeOpcode strict i.opcodeWord = .ok (i.code, i.operands.map Operand.mode)

theorem OpcodeWord.add (a b d : Operand) : OpcodeWord.Statement (.add a b d) := by
  obtain ⟨ma, ra⟩ := a
  obtain ⟨mb, rb⟩ := b
  obtain ⟨md, rd⟩ := d
  intro h strict
  show decodeOpcode strict (BitVec.ofNat 64 (1 + 100 * ma.digit + 1000 * mb.digit + 10000 * md.digit))
    = .ok (.add, [ma, mb, md])
  cases strict <;> cases ma <;> cases mb <;> cases md <;> first | decide | exact absurd h Bool.false_ne_true

theorem OpcodeWord.mul (a b d : Operand) : OpcodeWord.Statement (.mul a b d) := by
  obtain ⟨ma, ra⟩ := a
  obtain ⟨mb, rb⟩ := b
  obtain ⟨md, rd⟩ := d
  intro h strict
  show decodeOpcode strict (BitVec.ofNat 64 (2 + 100 * ma.digit + 1000 * mb.digit + 10000 * md.digit))
    = .ok (.mul, [ma, mb, md])
  cases strict <;> cases ma <;> cases mb <;> cases md <;> first | decide | exact absurd h Bool.false_ne_true

theorem OpcodeWord.inp (d : Operand) : OpcodeWord.Statement (.inp d) := by
  obtain ⟨md, rd⟩ := d
  intro h strict
  show decodeOpcode strict (BitVec.ofNat 64 (3 + 100 * md.digit + 1000 * 0 + 10000 * 0))
    = .ok (.inp, [md])
  cases strict <;> cases md <;> first | decide | exact absurd h Bool.false_ne_true

theorem OpcodeWord.out (a : Operand) : OpcodeWord.Statement (.out a) := by
  obtain ⟨ma, ra⟩ := a
  intro _ strict
  show decodeOpcode strict (BitVec.ofNat 64 (4 + 100 * ma.digit + 1000 * 0 + 10000 * 0))
    = .ok (.out, [ma])
  cases strict <;> cases ma <;> decide

theorem OpcodeWord.jt (cond target : Operand) : OpcodeWord.Statement (.jt cond target) := by
  obtain ⟨mc, rc⟩ := cond
  obtain ⟨mt, rt⟩ := target
  intro _ strict
  show decodeOpcode strict (BitVec.ofNat 64 (5 + 100 * mc.digit + 1000 * mt.digit + 10000 * 0))
    = .ok (.jt, [mc, mt])
  cases strict <;> cases mc <;> cases mt <;> decide

theorem OpcodeWord.jf (cond target : Operand) : OpcodeWord.Statement (.jf cond target) := by
  obtain ⟨mc, rc⟩ := cond
  obtain ⟨mt, rt⟩ := target
  intro _ strict
  show decodeOpcode strict (BitVec.ofNat 64 (6 + 100 * mc.digit + 1000 * mt.digit + 10000 * 0))
    = .ok (.jf, [mc, mt])
  cases strict <;> cases mc <;> cases mt <;> decide

theorem OpcodeWord.lt (a b d : Operand) : OpcodeWord.Statement (.lt a b d) := by
  obtain ⟨ma, ra⟩ := a
  obtain ⟨mb, rb⟩ := b
  obtain ⟨md, rd⟩ := d
  intro h strict
  show decodeOpcode strict (BitVec.ofNat 64 (7 + 100 * ma.digit + 1000 * mb.digit + 10000 * md.digit))
    = .ok (.lt, [ma, mb, md])
  cases strict <;> cases ma <;> cases mb <;> cases md <;> first | decide | exact absurd h Bool.false_ne_true

theorem OpcodeWord.eq (a b d : Operand) : OpcodeWord.Statement (.eq a b d) := by
  obtain ⟨ma, ra⟩ := a
  obtain ⟨mb, rb⟩ := b
  obtain ⟨md, rd⟩ := d
  intro h strict
  show decodeOpcode strict (BitVec.ofNat 64 (8 + 100 * ma.digit + 1000 * mb.digit + 10000 * md.digit))
    = .ok (.eq, [ma, mb, md])
  cases strict <;> cases ma <;> cases mb <;> cases md <;> first | decide | exact absurd h Bool.false_ne_true

theorem OpcodeWord.arb (a : Operand) : OpcodeWord.Statement (.arb a) := by
  obtain ⟨ma, ra⟩ := a
  intro _ strict
  show decodeOpcode strict (BitVec.ofNat 64 (9 + 100 * ma.digit + 1000 * 0 + 10000 * 0))
    = .ok (.arb, [ma])
  cases strict <;> cases ma <;> decide

theorem OpcodeWord.hlt : OpcodeWord.Statement .hlt := by
  intro _ strict
  show decodeOpcode strict (BitVec.ofNat 64 (99 + 100 * 0 + 1000 * 0 + 10000 * 0))
    = .ok (.hlt, [])
  cases strict <;> decide

end Sys2Proof.Laws
end

