-- ==== Sys2Proof/Laws/Ports.lean ====
section
/-! SUPPORT. Construction and boot, and the fuel of advance (spec 47_host_interface.md R82, R85; 70_reset_and_hazards.md
R109). -/

namespace Sys2Proof.Machine

/-- Zero cells at the end of a buffer are not listed. -/
theorem Memory.ofCells_append_zeros (a : Nat) (ws : List Word) (n : Nat) :
    Memory.ofCells a (ws ++ List.replicate n 0) = Memory.ofCells a ws := by
  induction ws generalizing a with
  | nil =>
    induction n generalizing a with
    | zero => rfl
    | succ n ih =>
      rw [List.replicate_succ, List.nil_append]
      exact ih (a + 1)
  | cons w ws ih => simp only [List.cons_append, Memory.ofCells, ih]

/-- `boot` is construct over the padded buffer. -/
theorem boot_eq_construct (config : Config) (program : List Word) (len : MemLen)
    (h : program.length ≤ len.val) :
    ∃ hb, boot config program len h = construct config (bootBuffer program len.val) hb := by
  have hl : (bootBuffer program len.val).length = len.val := by simp [bootBuffer]; omega
  refine ⟨by rw [hl]; exact len.isLt, ?_⟩
  have hm : Memory.ofCells 0 (bootBuffer program len.val) = Memory.ofCells 0 program :=
    Memory.ofCells_append_zeros 0 program _
  unfold boot construct
  simp only [hm, hl]

/-- Every memory that the placing of cells leaves is in canonical form. -/
theorem State.withFetchWord_wf {s : State} (h : s.mem.wf) (nbits w : Nat) :
    (s.withFetchWord nbits w).mem.wf := by
  have : s.readyToFetch.mem = s.mem := by unfold State.readyToFetch; split <;> rfl
  exact Memory.writeCells_wf (this ▸ h) _ _

/-- One more step of fuel keeps what advance found. -/
theorem advanceWithin_succ {n : Nat} {s : State} {r : Event × State} (h : advanceWithin n s = some r) :
    advanceWithin (n + 1) s = some r := by
  induction n generalizing s with
  | zero => cases h
  | succ n ih =>
    obtain ⟨t, ht, -⟩ := step_effect s
    unfold advanceWithin at h ⊢
    rw [ht] at h ⊢
    simp only at h ⊢
    split at h
    · exact h
    · exact ih h

/-- More fuel keeps what advance found. -/
theorem advanceWithin_mono {n m : Nat} (hnm : n ≤ m) {s : State} {r : Event × State}
    (h : advanceWithin n s = some r) : advanceWithin m s = some r := by
  induction hnm with
  | refl => exact h
  | step _ ih => exact advanceWithin_succ ih

end Sys2Proof.Machine
end

