-- ==== Sys2Proof/Machine/Assembler.lean ====
section
/-! DEFINITION. The assembly notation as data, and the cells it spells (spec 30_encoding.md R53, R54). The lines
of its text and its comments are the notation's spelling and stand outside the model (log entry 12). -/

namespace Sys2Proof

/-- An operand's number: an integer, or a label, which stands for the address it is bound to. -/
inductive AsmValue where
  | int (v : Word)
  | label (name : String)
deriving DecidableEq, Repr

/-- The operand forms of R53: `[a]`, `#v` and `[rb+o]`. DESIGN CHOICE (log entry 12): the offset `o` is an
integer and never a label, which R53 leaves open. -/
inductive AsmOperand where
  | position (a : AsmValue)
  | immediate (v : AsmValue)
  | relative (o : Word)
deriving DecidableEq, Repr

/-- The items of an assembly program: R53's lines and the pseudo-instructions of R54. -/
inductive AsmItem where
  /-- `label:` -/
  | label (name : String)
  /-- `.word v0, v1, ...`. DESIGN CHOICE (log entry 12): the cells are integers and never labels, which R53
  leaves open. -/
  | word (cells : List Word)
  /-- `mnemonic op0, op1, op2` -/
  | instr (c : Code) (ops : List AsmOperand)
  | jmp (t : AsmOperand)
  | mov (s d : AsmOperand)
deriving DecidableEq, Repr

/-- How many cells an item takes. -/
def AsmItem.size : AsmItem → Nat
  | .label _ => 0
  | .word cells => cells.length
  | .instr c _ => c.length
  | .jmp _ => Code.jt.length
  | .mov _ _ => Code.add.length

/-- Each label with the address of the next cell, for a program that starts at `a`. -/
def labelAddresses (a : Nat) : List AsmItem → List (String × Nat)
  | [] => []
  | item :: items =>
    match item with
    | .label name => (name, a) :: labelAddresses a items
    | .word _ | .instr _ _ | .jmp _ | .mov _ _ => labelAddresses (a + item.size) items

/-- The cell of a value, if a label in it is bound exactly once. -/
def AsmValue.cell? (labels : List (String × Nat)) : AsmValue → Option Word
  | .int v => some v
  | .label name =>
    match labels.filter fun p => p.1 == name with
    | [p] => some (BitVec.ofNat 64 p.2)
    | _ => none

/-- The mode and raw operand of an operand form. -/
def AsmOperand.operand? (labels : List (String × Nat)) : AsmOperand → Option Operand
  | .position a => (a.cell? labels).map (Operand.mk .position)
  | .immediate v => (v.cell? labels).map (Operand.mk .immediate)
  | .relative o => some ⟨.relative, o⟩

/-- The cells of an item. There are none where a label is not bound once, where the operand count does not
match the code, and where a write operand is immediate. -/
def AsmItem.cells? (labels : List (String × Nat)) : AsmItem → Option (List Word)
  | .label _ => some []
  | .word cells => some cells
  | .instr c ops => do
    let i ← c.build (← ops.mapM (AsmOperand.operand? labels))
    assemble i
  | .jmp t => do assemble (pseudoJmp (← t.operand? labels))
  | .mov s d => do assemble (pseudoMov (← s.operand? labels) (← d.operand? labels))

/-- The cells of an assembly program, to stand from address 0 on. -/
def assembleProgram (items : List AsmItem) : Option (List Word) :=
  (items.mapM (AsmItem.cells? (labelAddresses 0 items))).map List.flatten

/-- The text form of cells: base-10 signed integers with commas between them. -/
def programText (cells : List Word) : String :=
  ",".intercalate (cells.map fun w => toString w.toInt)

end Sys2Proof
end

