-- ==== Sys2Proof/Tests/Slice0.lean ====
section
/-! SUPPORT. Tests of the model on small states, and for every statement with hypotheses a witness that meets
them. Expected values are from spec/95_test_vectors.md (the vector's id is in the comment) or written out from
the encoding rules of spec/30_encoding.md. -/

namespace Sys2Proof.Tests

open Sys2Proof.Machine

/-! ### Ill-formed instructions: one for each check of WellFormed (R44) -/

theorem test_add_immediate_destination_illFormed :
    (Instr.add ⟨.position, 0⟩ ⟨.position, 0⟩ ⟨.immediate, 0⟩).wf = false := by decide
theorem test_mul_immediate_destination_illFormed :
    (Instr.mul ⟨.position, 0⟩ ⟨.position, 0⟩ ⟨.immediate, 0⟩).wf = false := by decide
theorem test_in_immediate_destination_illFormed : (Instr.inp ⟨.immediate, 0⟩).wf = false := by decide
theorem test_lt_immediate_destination_illFormed :
    (Instr.lt ⟨.position, 0⟩ ⟨.position, 0⟩ ⟨.immediate, 0⟩).wf = false := by decide
theorem test_eq_immediate_destination_illFormed :
    (Instr.eq ⟨.position, 0⟩ ⟨.position, 0⟩ ⟨.immediate, 0⟩).wf = false := by decide
theorem test_assembler_rejects_immediate_destination : assemble (.inp ⟨.immediate, 0⟩) = none := by decide

/-- The countdown of 95_test_vectors.md 3.1, its labels bound. -/
theorem test_assemble_countdown : assembleProgram
    [.instr .inp [.position (.label "n")], .label "loop", .instr .out [.position (.label "n")],
      .instr .add [.position (.label "n"), .immediate (.int (-1)), .position (.label "n")],
      .instr .jt [.position (.label "n"), .immediate (.label "loop")], .instr .hlt [],
      .word (List.replicate 8 0), .label "n", .word [0]] =
    some ([3, 20, 4, 20, 1001, 20, -1, 20, 1005, 20, 2, 99] ++ List.replicate 9 0) := by decide
/-- R54's examples, and what an assembler must reject (R53). -/
theorem test_assemble_pseudo_and_rejects :
    assembleProgram [.jmp (.immediate (.int 10)), .mov (.position (.int 5)) (.position (.int 6))] =
      some [1105, 1, 10, 1001, 5, 0, 6] ∧
    assembleProgram [.instr .inp [.immediate (.int 0)]] = none ∧
    assembleProgram [.instr .inp []] = none ∧
    assembleProgram [.jmp (.immediate (.label "nowhere"))] = none := by decide

/-! ### Decoding, the words written out from R40 to R43 -/

theorem test_decode_add : decode true [21201, 5, 6, 7] =
    .ok (.add ⟨.relative, 5⟩ ⟨.immediate, 6⟩ ⟨.relative, 7⟩) := by decide
theorem test_decode_mul : decode true [1002, 4, 3, 4] =
    .ok (.mul ⟨.position, 4⟩ ⟨.immediate, 3⟩ ⟨.position, 4⟩) := by decide
theorem test_decode_in : decode true [203, 9] = .ok (.inp ⟨.relative, 9⟩) := by decide
theorem test_decode_out : decode true [104, 9] = .ok (.out ⟨.immediate, 9⟩) := by decide
theorem test_decode_jt : decode true [105, 1, 20] = .ok (.jt ⟨.immediate, 1⟩ ⟨.position, 20⟩) := by decide
theorem test_decode_jf : decode true [2006, 1, 20] = .ok (.jf ⟨.position, 1⟩ ⟨.relative, 20⟩) := by decide
theorem test_decode_lt : decode true [20107, 1, 2, 3] =
    .ok (.lt ⟨.immediate, 1⟩ ⟨.position, 2⟩ ⟨.relative, 3⟩) := by decide
theorem test_decode_eq : decode true [2208, 1, 2, 3] =
    .ok (.eq ⟨.relative, 1⟩ ⟨.relative, 2⟩ ⟨.position, 3⟩) := by decide
theorem test_decode_arb : decode true [9, 3] = .ok (.arb ⟨.position, 3⟩) := by decide
theorem test_decode_hlt : decode true [99, 5] = .ok .hlt := by decide

/-- The rejections, each by its name (DC1, DC4, H2, DC6, DC8, A15), and the lax reading of H2. -/
theorem test_decode_rejects :
    decode true [] = .error .noWord ∧
    decode true [0] = .error .illegalOpcode ∧
    decode true [BitVec.ofInt 64 (-1)] = .error .illegalOpcode ∧
    decode true [199] = .error (.illegalParameterMode none) ∧
    decode true [301, 0, 0, 0] = .error (.illegalParameterMode (some 0)) ∧
    decode true [11101] = .error (.illegalWriteMode 2) ∧
    decode true [1, 0, 0] = .error (.truncated [(.read, ⟨.position, 0⟩), (.read, ⟨.position, 0⟩)]) ∧
    decode false [199] = .ok .hlt := by decide

/-- The host's numbering: the opcode word in the low 64 bits, the operand cells above it. -/
theorem test_decodeTableWord :
    decodeTableWord 8 4 = some (.out ⟨.position, 0⟩) ∧
    decodeTableWord 128 (104 + 7 * 2 ^ 64) = some (.out ⟨.immediate, 7⟩) := by decide

theorem test_withFetchWord_runs_out : step (State.reset.withFetchWord 8 4) =
    .next { State.reset.withFetchWord 8 4 with ip := 2, lastResult := some (.output 4) } := by rfl

/-- A machine that stands elsewhere is made ready too. -/
theorem test_withFetchWord_runs_after_halt :
    step (State.withFetchWord { State.reset with status := .halted, ip := BitVec.ofInt 64 (-1) } 8 99) =
      .next { State.reset with mem := [(0, 99)], status := .halted, lastResult := some .halted } := by rfl

/-! ### Single steps -/

/-- The machine over `cells` and zeros, `len` cells in all. -/
def machine (cells : List Word) (len : MemLen) (h : cells.length ≤ len.val := by decide) : State :=
  boot Config.default cells len h

/-- The same under the policy wrap and without strict mode digits. -/
def laxMachine (cells : List Word) (len : MemLen) (h : cells.length ≤ len.val := by decide) : State :=
  boot ⟨.wrap, false⟩ cells len h

/-- What `f` reads in the state a step leaves. -/
def after {α : Type} (s : State) (f : State → α) : Option α :=
  match step s with
  | .next t => some (f t)
  | .fault _ => none
  | .refused _ => none

def minInt : Word := BitVec.ofInt 64 (-2 ^ 63)
def maxInt : Word := BitVec.ofInt 64 (2 ^ 63 - 1)

/-- A2: both reads come before the write. -/
theorem test_add_reads_before_write :
    after (machine [1, 5, 5, 5, 99, 21] ⟨6, by decide⟩) (fun t => (t.mem.read 5, t.ip)) = some (42, 4) := by
  decide
/-- A4: the overflow record; A4w: the wrapped sum. -/
theorem test_add_overflow :
    after (machine [1101, maxInt, 1, 5, 99, 0] ⟨6, by decide⟩) State.status =
      some (.faulted ⟨.arithmeticOverflow, 0, some 1101, none, none, none, 0⟩) ∧
    after (laxMachine [1101, maxInt, 1, 5, 99, 0] ⟨6, by decide⟩) (fun t => t.mem.read 5) = some minInt := by
  decide
/-- A6. -/
theorem test_mul_signs : after (machine [1102, BitVec.ofInt 64 (-3), BitVec.ofInt 64 (-4), 5, 99, 0] ⟨6, by decide⟩)
    (fun t => t.mem.read 5) = some 12 := by decide
/-- A9, A9w. -/
theorem test_mul_overflow :
    after (machine [1102, BitVec.ofInt 64 (-1), minInt, 5, 99, 0] ⟨6, by decide⟩) State.status =
      some (.faulted ⟨.arithmeticOverflow, 0, some 1102, none, none, none, 0⟩) ∧
    after (laxMachine [1102, BitVec.ofInt 64 (-1), minInt, 5, 99, 0] ⟨6, by decide⟩)
      (fun t => t.mem.read 5) = some minInt := by decide
/-- I6: a relative destination, which is the instruction's own operand cell. -/
theorem test_in_relative : after { machine [109, 10, 203, BitVec.ofInt 64 (-7), 99] ⟨5, by decide⟩ with
      ip := 2, rb := 10, pending := some 11 } (fun t => (t.mem.read 3, t.pending, t.ip)) =
    some (11, none, 4) := by decide
/-- I2 and I10: NeedsInput, and the fault that comes before it. -/
theorem test_in_waits_and_faults :
    after (machine [3, 0, 99] ⟨3, by decide⟩) id =
      some { machine [3, 0, 99] ⟨3, by decide⟩ with lastResult := some .needsInput } ∧
    after (machine [3, 9] ⟨2, by decide⟩) State.status =
      some (.faulted ⟨.outOfBounds, 0, some 3, some 0, some 9, some 9, 0⟩) := by decide
/-- I4. -/
theorem test_out_advances : after (machine [104, BitVec.ofInt 64 (-5), 99] ⟨3, by decide⟩)
    (fun t => (t.ip, t.lastResult)) = some (2, some (.output (BitVec.ofInt 64 (-5)))) := by decide
/-- R9: the relative address is not wrapped. -/
theorem test_out_exact_address :
    after { machine [109, maxInt, 204, maxInt] ⟨4, by decide⟩ with ip := 2, rb := maxInt } State.status =
      some (.faulted ⟨.outOfBounds, 2, some 204, some 0, some maxInt, some 18446744073709551614, maxInt⟩) := by
  decide
/-- J3. -/
theorem test_jt_minus_one : after (machine [1105, BitVec.ofInt 64 (-1), 5, 104, 0, 104, 1, 99] ⟨8, by decide⟩)
    State.ip = some 5 := by decide
/-- J5: the bad target is stored, and the next fetch faults. -/
theorem test_jt_bad_target :
    after (machine [1105, 1, BitVec.ofInt 64 (-1)] ⟨3, by decide⟩) State.ip = some (BitVec.ofInt 64 (-1)) ∧
    after { machine [1105, 1, BitVec.ofInt 64 (-1)] ⟨3, by decide⟩ with ip := BitVec.ofInt 64 (-1) }
      State.status = some (.faulted ⟨.outOfBounds, BitVec.ofInt 64 (-1), none, none, none, some (-1), 0⟩) := by
  decide
/-- J2, J2n. -/
theorem test_jf_zero_only :
    after (machine [1106, 0, 5, 104, 0, 104, 1, 99] ⟨8, by decide⟩) State.ip = some 5 ∧
    after (machine [1106, BitVec.ofInt 64 (-1), 5, 104, 0, 104, 1, 99] ⟨8, by decide⟩) State.ip = some 3 := by
  decide
/-- C1b, C3a. -/
theorem test_lt_strict_and_signed :
    after (machine [1107, 3, 3, 5, 99, 9] ⟨6, by decide⟩) (fun t => t.mem.read 5) = some 0 ∧
    after (machine [1107, minInt, maxInt, 5, 99, 0] ⟨6, by decide⟩) (fun t => t.mem.read 5) = some 1 := by
  decide
/-- C5, C2b. -/
theorem test_eq_whole_cell :
    after (machine [8, 0, 0, 2, 99] ⟨5, by decide⟩) (fun t => t.mem.read 2) = some 1 ∧
    after (machine [1108, 7, BitVec.ofInt 64 (-7), 5, 99, 9] ⟨6, by decide⟩) (fun t => t.mem.read 5) =
      some 0 := by decide
/-- R5: relative mode at the old base. -/
theorem test_arb_relative : after (machine [209, 0, 99] ⟨3, by decide⟩) (fun t => (t.rb, t.ip)) =
    some (209, 2) := by decide
/-- R6, R6w. -/
theorem test_arb_overflow :
    after { machine [109, 1, 99] ⟨3, by decide⟩ with rb := maxInt } State.rb = some maxInt ∧
    after { laxMachine [109, 1, 99] ⟨3, by decide⟩ with rb := maxInt } State.rb = some minInt := by decide
/-- H1. -/
theorem test_hlt_stays : after (machine [99] ⟨1, by decide⟩) (fun t => (t.ip, t.status)) =
    some (0, .halted) := by decide
/-- DC9, A15, DC8: fetch outside memory, a missing operand cell, and modes before operand cells. -/
theorem test_fetch_faults :
    after (machine [] ⟨0, by decide⟩) State.status =
      some (.faulted ⟨.outOfBounds, 0, none, none, none, some 0, 0⟩) ∧
    after (machine [1, 0, 0] ⟨3, by decide⟩) State.status =
      some (.faulted ⟨.outOfBounds, 0, some 1, some 2, none, some 3, 0⟩) ∧
    after (machine [11101] ⟨1, by decide⟩) State.status =
      some (.faulted ⟨.illegalWriteMode, 0, some 11101, some 2, none, none, 0⟩) := by decide

/-! ### Witnesses: states and operands that meet the hypotheses of the statements -/

/-- The cells `1,0,0,0,99` in a memory of five cells (S1). -/
def adder : State := machine [1, 0, 0, 0, 99] ⟨5, by decide⟩
/-- A machine that has halted, and one that has faulted. -/
def halted : State := { machine [99] ⟨1, by decide⟩ with status := .halted, lastResult := some .halted }
def aRecord : FaultRecord := ⟨.illegalOpcode, 0, some 0, none, none, none, 0⟩
def faulted : State := { machine [0] ⟨1, by decide⟩ with
  status := .faulted aRecord, lastResult := some (.fault aRecord) }
/-- A machine at an input instruction, without and with an input. -/
def waiting : State := machine [3, 0, 99] ⟨3, by decide⟩
def fed : State := provideInput 5 waiting
/-- A machine with relative base 2. -/
def based : State := { machine [204, 2, 204, 2, 7] ⟨5, by decide⟩ with rb := 2 }

theorem witness_PseudoInstructionsExpand : (⟨.relative, 7⟩ : Operand).mode ≠ .immediate := by decide
theorem witness_OpcodeWordIsTheUniqueStrictWord :
    (Instr.add ⟨.relative, 1⟩ ⟨.relative, 2⟩ ⟨.relative, 3⟩).wf = true ∧
    decodeOpcode true 22201 = .ok (.add, [.relative, .relative, .relative]) := by decide
theorem witness_DecodeInvertsEncode : (Instr.inp ⟨.relative, maxInt⟩).wf = true := by decide
theorem witness_EncodeInvertsStrictDecode :
    decode true [22201, 1, 2, 3, 99] = .ok (.add ⟨.relative, 1⟩ ⟨.relative, 2⟩ ⟨.relative, 3⟩) := by decide
theorem witness_LegalWordsAreTheTable :
    let s := machine [199] ⟨1, by decide⟩
    s.status = .running ∧ s.config.strictModeDigits = true ∧ s.cell? s.ip.toInt = some 199 ∧
      ∀ c, (199 : Word).toInt ∉ legalWords c :=
  ⟨rfl, rfl, by decide, by intro c; cases c <;> decide⟩
theorem witness_FetchOutsideMemoryFaults :
    adder.status = .running ∧ ¬ State.inBounds { adder with ip := 5 } 5 ∧
      State.inBounds { adder with ip := 4 } 4 := by decide
theorem witness_FetchedCellsAreMemoryAtIp : 3 < 4 ∧ adder.fetchCells[3]? = some 0 := by decide
theorem witness_IllegalOpcodeExactly :
    (machine [BitVec.ofInt 64 (-1)] ⟨1, by decide⟩).cell? 0 = some (BitVec.ofInt 64 (-1)) ∧
    (BitVec.ofInt 64 (-1)).toInt < 0 ∧ (machine [100] ⟨1, by decide⟩).cell? 0 = some 100 ∧
    (∀ c : Code, (100 : Word).toInt % 100 ≠ c.number) ∧ adder.cell? 0 = some 1 ∧
    (1 : Word).toInt % 100 = Code.add.number :=
  ⟨by decide, by decide, by decide, by intro c; cases c <;> decide, by decide, by decide⟩
theorem witness_ModeDigitsValidatedInOrder :
    ((machine [100001] ⟨1, by decide⟩).config.strictModeDigits = true ∧
      (100001 : Word).toNat / 10 ^ (2 + Code.add.nops) ≠ 0) ∧
    ((10301 : Word).toNat / 10 ^ (2 + Code.add.nops) = 0 ∧ 3 ≤ dig (10301 : Word).toNat 2) ∧
    ((11101 : Word).toNat / 10 ^ (2 + Code.add.nops) = 0 ∧ dig (11101 : Word).toNat 2 < 3 ∧
      dig (11101 : Word).toNat 3 < 3 ∧ Code.add.roles[2]? = some .write ∧ dig (11101 : Word).toNat 4 = 1) ∧
    (machine [11101] ⟨1, by decide⟩).cell? 0 = some 11101 := by decide
theorem witness_OperandsFetchedAndResolvedInOrder_missing :
    let s := machine [1, 0, 0] ⟨3, by decide⟩
    s.cell? s.ip.toInt = some 1 ∧ decodeOpcode true 1 = .ok (.add, [.position, .position, .position]) ∧
      s.operandFault? 0 .read ⟨.position, 0⟩ = none ∧ s.operandFault? 1 .read ⟨.position, 0⟩ = none ∧
      s.cell? (s.ip.toInt + 1 + (1 : Nat)) = some 0 ∧ s.cell? (s.ip.toInt + 1 + (2 : Nat)) = none := by decide
theorem witness_OperandsFetchedAndResolvedInOrder_unresolved :
    let s := machine [1, 0, 9] ⟨3, by decide⟩
    s.operandFault? 0 .read ⟨.position, 0⟩ = none ∧ s.cell? (s.ip.toInt + 1 + (1 : Nat)) = some 9 ∧
      s.operandFault? 1 .read ⟨.position, 9⟩ = some ⟨.outOfBounds, some 1, some 9, some 9⟩ := by decide
theorem witness_ReadOperandResolution :
    adder.inBounds (4 : Word).toInt ∧ ¬ adder.inBounds (5 : Word).toInt ∧
      based.inBounds (based.rb.toInt + (2 : Word).toInt) ∧
      ¬ based.inBounds (based.rb.toInt + (3 : Word).toInt) := by decide
theorem witness_WriteOperandResolution :
    adder.inBounds (0 : Word).toInt ∧ ¬ adder.inBounds (BitVec.ofInt 64 (-1)).toInt ∧
      based.inBounds (based.rb.toInt + (BitVec.ofInt 64 (-2)).toInt) ∧
      ¬ based.inBounds (based.rb.toInt + (BitVec.ofInt 64 (-3)).toInt) := by decide
theorem witness_RelativeAddressIsTheExactSum :
    based.inBounds (based.rb.toInt + (BitVec.ofInt 64 (-2)).toInt) ∧
      ¬ based.inBounds (based.rb.toInt + (3 : Word).toInt) ∧
      ¬ fitsI64 ((State.rb { based with rb := maxInt }).toInt + maxInt.toInt) := by decide
theorem witness_ImmediateWriteOperandFaults : (⟨.immediate, 3⟩ : Operand).mode = .immediate := by decide
theorem witness_StepRunsTheDecodedInstruction :
    adder.Executes (.add ⟨.position, 0⟩ ⟨.position, 0⟩ ⟨.position, 0⟩) := ⟨rfl, by decide⟩
theorem witness_StatusGate : halted.status = .halted ∧ faulted.status = .faulted aRecord := by decide
theorem witness_IpUpdate_next : ∃ t, adder.Executes (.add ⟨.position, 0⟩ ⟨.position, 0⟩ ⟨.position, 0⟩) ∧
    step adder = .next t ∧ t.ip = 4 := ⟨_, ⟨rfl, by decide⟩, rfl, by decide⟩
theorem witness_IpUpdate_jump : ∃ t,
    (machine [1105, 1, 9] ⟨3, by decide⟩).Executes (.jt ⟨.immediate, 1⟩ ⟨.immediate, 9⟩) ∧
    step (machine [1105, 1, 9] ⟨3, by decide⟩) = .next t ∧ t.ip = 9 := ⟨_, ⟨rfl, by decide⟩, rfl, by decide⟩
theorem witness_IpUpdate_stays : ∃ t, waiting.Executes (.inp ⟨.position, 0⟩) ∧ step waiting = .next t ∧
    t.ip = waiting.ip := ⟨_, ⟨rfl, by decide⟩, rfl, by decide⟩
theorem witness_FaultsArePrecise : ∃ t, step (machine [0] ⟨1, by decide⟩) = .next t ∧
    t.status = .faulted aRecord := ⟨_, rfl, by decide⟩
theorem witness_FaultRecordFields_inside : ∃ t, step (machine [4, 9] ⟨2, by decide⟩) = .next t ∧
    t.status = .faulted ⟨.outOfBounds, 0, some 4, some 0, some 9, some 9, 0⟩ := ⟨_, rfl, by decide⟩
theorem witness_FaultRecordFields_outside : ∃ t, step { adder with ip := 5 } = .next t ∧
    t.status = .faulted ⟨.outOfBounds, 5, none, none, none, some 5, 0⟩ := ⟨_, rfl, by decide⟩
theorem witness_EndsAreAbsorbing : Steps 1 halted halted ∧ Steps 1 faulted faulted :=
  ⟨.step (t := halted) rfl .refl, .step (t := faulted) rfl .refl⟩
theorem witness_OnlyArbWritesRelativeBase : ∃ t, step (machine [109, 7] ⟨2, by decide⟩) = .next t ∧
    t.rb ≠ (machine [109, 7] ⟨2, by decide⟩).rb := ⟨_, rfl, by decide⟩
theorem witness_OnlyInClearsPending : ∃ t, step fed = .next t ∧ t.pending ≠ fed.pending :=
  ⟨_, rfl, by decide⟩
theorem witness_OnlyDestinationCellsChange : ∃ t, step adder = .next t ∧ t.mem.read 0 ≠ adder.mem.read 0 :=
  ⟨_, rfl, by decide⟩
theorem witness_ParametersNeverChange : ∃ t, Steps 1 adder t := ⟨_, .step rfl .refl⟩
theorem witness_WriteReplacesOneCell : adder.mem.wf ∧ (1 : Nat) ≠ 0 := by decide
theorem witness_StoredCellIsFetched :
    let t : State := { adder.store 4 7 with ip := 4 }
    adder.mem.wf ∧ 4 < adder.memLen.val ∧ t.mem = (adder.store 4 7).mem ∧ t.memLen = adder.memLen ∧
      t.ip.toInt = ((4 : Nat) : Int) := by decide
theorem witness_OverflowPolicyOfResults :
    fitsI64 (2 ^ 63 - 1) ∧ fitsI64 (-2 ^ 63) ∧ ¬ fitsI64 (2 ^ 63) ∧ ¬ fitsI64 (-2 ^ 63 - 1) := by decide

/-- The operands of the result statements: a position read, an immediate read and a relative destination. -/
theorem witness_operands :
    based.ReadsAs ⟨.position, 4⟩ 7 ∧ based.ReadsAs ⟨.immediate, maxInt⟩ maxInt ∧
      based.ReadsAs ⟨.relative, 2⟩ 7 ∧ based.WritesTo ⟨.relative, 2⟩ 4 ∧ based.WritesTo ⟨.position, 0⟩ 0 :=
  ⟨⟨by decide, by decide, by decide⟩, rfl, ⟨by decide, by decide, by decide⟩,
    ⟨by decide, by decide, by decide⟩, ⟨by decide, by decide, by decide⟩⟩
theorem witness_AddWritesSum : based.ReadsAs ⟨.position, 4⟩ 7 ∧ based.ReadsAs ⟨.immediate, 1⟩ 1 ∧
    based.WritesTo ⟨.relative, 2⟩ 4 ∧ fitsI64 ((7 : Word).toInt + (1 : Word).toInt) :=
  ⟨witness_operands.1, rfl, witness_operands.2.2.2.1, by decide⟩
theorem witness_AddWritesSum_wrap : (laxMachine [0] ⟨1, by decide⟩).ReadsAs ⟨.immediate, maxInt⟩ maxInt ∧
    (laxMachine [0] ⟨1, by decide⟩).WritesTo ⟨.position, 0⟩ 0 ∧
    (laxMachine [0] ⟨1, by decide⟩).config.overflowPolicy = .wrap :=
  ⟨rfl, ⟨by decide, by decide, by decide⟩, rfl⟩
theorem witness_MulWritesProduct : based.ReadsAs ⟨.position, 4⟩ 7 ∧ based.ReadsAs ⟨.relative, 2⟩ 7 ∧
    based.WritesTo ⟨.position, 0⟩ 0 ∧ fitsI64 ((7 : Word).toInt * (7 : Word).toInt) :=
  ⟨witness_operands.1, witness_operands.2.2.1, witness_operands.2.2.2.2, by decide⟩
theorem witness_OverflowFaultsWriteNothing : based.config.overflowPolicy = .fault ∧
    based.ReadsAs ⟨.immediate, maxInt⟩ maxInt ∧ based.WritesTo ⟨.position, 0⟩ 0 ∧
    ¬ fitsI64 (maxInt.toInt + maxInt.toInt) ∧ ¬ fitsI64 (maxInt.toInt * maxInt.toInt) ∧
    ¬ fitsI64 (based.rb.toInt + maxInt.toInt) :=
  ⟨rfl, rfl, witness_operands.2.2.2.2, by decide, by decide, by decide⟩
theorem witness_InStoresPendingInput : fed.WritesTo ⟨.position, 2⟩ 2 ∧ fed.pending = some 5 :=
  ⟨⟨by decide, by decide, by decide⟩, rfl⟩
theorem witness_InWithoutInputWaits : waiting.WritesTo ⟨.position, 2⟩ 2 ∧ waiting.pending = none ∧
    (∀ e, ¬ waiting.WritesTo ⟨.position, 3⟩ e) ∧ ∀ e, ¬ waiting.WritesTo ⟨.immediate, 0⟩ e :=
  ⟨⟨by decide, by decide, by decide⟩, rfl, fun _ h => absurd h.2.1 (by decide), fun _ h => h⟩
theorem witness_OutEmitsValue : based.ReadsAs ⟨.relative, 2⟩ 7 := witness_operands.2.2.1
theorem witness_JtJumpsOnNonzero : based.ReadsAs ⟨.position, 4⟩ 7 ∧ based.ReadsAs ⟨.immediate, maxInt⟩ maxInt ∧
    (7 : Word).toInt ≠ 0 ∧ based.ReadsAs ⟨.immediate, 0⟩ 0 ∧ (0 : Word).toInt = 0 :=
  ⟨witness_operands.1, rfl, by decide, rfl, by decide⟩
theorem witness_JfJumpsOnZero : based.ReadsAs ⟨.immediate, 0⟩ 0 ∧ based.ReadsAs ⟨.relative, 2⟩ 7 ∧
    (0 : Word).toInt = 0 ∧ based.ReadsAs ⟨.immediate, minInt⟩ minInt ∧ minInt.toInt ≠ 0 :=
  ⟨rfl, witness_operands.2.2.1, by decide, rfl, by decide⟩
theorem witness_ComparisonsWriteOneOrZero : based.ReadsAs ⟨.immediate, minInt⟩ minInt ∧
    based.ReadsAs ⟨.immediate, maxInt⟩ maxInt ∧ based.WritesTo ⟨.relative, 2⟩ 4 :=
  ⟨rfl, rfl, witness_operands.2.2.2.1⟩
theorem witness_ArbAddsToRelativeBase : based.ReadsAs ⟨.relative, 2⟩ 7 ∧
    fitsI64 (based.rb.toInt + (7 : Word).toInt) := ⟨witness_operands.2.2.1, by decide⟩
theorem witness_FrameOfStoringInstructions :
    ∃ t, exec (.lt ⟨.position, 0⟩ ⟨.position, 4⟩ ⟨.position, 0⟩) adder = .next t ∧
      adder.writeOperand 2 ⟨.position, 0⟩ = .ok 0 := ⟨_, rfl, by decide⟩
theorem witness_FrameOfInput : ∃ t, exec (.inp ⟨.position, 2⟩) fed = .next t ∧
    fed.writeOperand 0 ⟨.position, 2⟩ = .ok 2 ∧ ∃ u, exec (.inp ⟨.position, 2⟩) waiting = .next u ∧
      u.lastResult ≠ some .continued := ⟨_, rfl, by decide, _, rfl, by decide⟩
theorem witness_FrameOfNonStoringInstructions : ∃ t, exec (.out ⟨.position, 0⟩) adder = .next t ∧
    (Instr.out ⟨.position, 0⟩) ≠ .arb ⟨.position, 0⟩ := ⟨_, rfl, by decide⟩
theorem witness_ConstructSetsEveryField : ([1, 0, 0, 0, 99] : List Word).length ≤ 6 ∧
    (bootBuffer [1, 0, 0, 0, 99] 6).length < 2 ^ 63 ∧ 5 ≤ 5 ∧ 5 < 6 := by decide
theorem witness_SnapshotOfConstructIsTheBuffer : ([7, 0, 9] : List Word).length < 2 ^ 63 := by decide
theorem witness_ProvideInputOnlyFillsTheSlot : halted.status ≠ .running ∧ faulted.status ≠ .running := by
  decide
theorem witness_AdvanceIsTheLoopOfSteps : Advances halted .halted halted := .event rfl rfl
theorem witness_AdvanceIsIdempotentAfterTheEnd :
    Advances halted .halted halted ∧ Advances faulted (.fault aRecord) faulted :=
  ⟨.event rfl rfl, .event rfl rfl⟩
theorem witness_ResumeAfterNeedsInput : Advances waiting .needsInput (waiting.report .needsInput) :=
  .event rfl rfl
/-- `jt` with operands read from memory: cell 1 holds 1 and cell 3 holds 0. -/
theorem witness_JumpToItselfDiverges_jt :
    let s := machine [5, 1, 3, 0] ⟨4, by decide⟩
    s.Executes (.jt ⟨.position, 1⟩ ⟨.position, 3⟩) ∧ s.ReadsAs ⟨.position, 3⟩ s.ip ∧
      s.ReadsAs ⟨.position, 1⟩ 1 ∧ (1 : Word).toInt ≠ 0 :=
  ⟨⟨rfl, by decide⟩, ⟨by decide, by decide, by decide⟩, ⟨by decide, by decide, by decide⟩, by decide⟩
theorem witness_JumpToItselfDiverges_jf :
    let s := machine [1206, 3, 0, 0] ⟨4, by decide⟩
    s.Executes (.jf ⟨.relative, 3⟩ ⟨.immediate, 0⟩) ∧ s.ReadsAs ⟨.immediate, 0⟩ s.ip ∧
      s.ReadsAs ⟨.relative, 3⟩ 0 ∧ (0 : Word).toInt = 0 :=
  ⟨⟨rfl, by decide⟩, rfl, ⟨by decide, by decide, by decide⟩, by decide⟩
theorem witness_InputExhaustedLeavesMachineSuspended :
    RunsToCompletion waiting [] (.inputExhausted []) (waiting.report .needsInput) :=
  .exhausted (.event rfl rfl)
theorem witness_InstancesShareNoState : (0 : Nat) ≠ 1 ∧
    Instances.AdvancesAt [adder, halted] 1 .halted [adder, halted] :=
  ⟨by decide, halted, halted, rfl, .event rfl rfl, rfl⟩

/-- A constructed machine meets the invariant. -/
theorem witness_StepKeepsTheInvariant : ∃ t, adder.Inv ∧ step adder = .next t :=
  ⟨_, ⟨⟨by decide, by decide⟩, ⟨by decide, fun _ => ⟨nofun, nofun⟩⟩, nofun⟩, rfl⟩
theorem witness_RunsKeepTheInvariant : adder.Inv ∧ Run adder [] none (provideInput 5 adder) :=
  ⟨⟨⟨by decide, by decide⟩, ⟨by decide, fun _ => ⟨nofun, nofun⟩⟩, nofun⟩, .provideInput 5 .start⟩
theorem witness_HaltedMachineIsSafe : halted.status = .halted := rfl

/-- A machine that stands at a halt executes nothing but the halt. -/
theorem witness_AddMulHaltMachinesTerminate :
    let s := machine [99] ⟨1, by decide⟩
    s.status = .running ∧ ∀ k t i, Steps k s t → t.Executes i →
      i.code = .add ∨ i.code = .mul ∨ i.code = .hlt := by
  refine ⟨rfl, fun k t i hk hi => ?_⟩
  have stuck : ∀ {k : Nat} {u v : State}, Steps k u v → u.status = .halted → v.status = .halted := by
    intro k u v h
    induction h with
    | refl => exact id
    | step hst _ ih =>
      intro hu
      rw [step_of_halted hu] at hst
      cases hst
      exact ih hu
  cases hk with
  | refl =>
    have : decode true [99] = .ok i := hi.2
    cases this.symm.trans (show decode true [99] = .ok .hlt by decide)
    exact .inr (.inr rfl)
  | step hst hrest =>
    have h1 : step (machine [99] ⟨1, by decide⟩) = .next halted := by rfl
    cases hst.symm.trans h1
    have := stuck hrest rfl
    rw [hi.1] at this
    cases this

end Sys2Proof.Tests
end

section
/-! The obligations of spec 00_scope.md, from the laws of the range check. -/

namespace Sys2Proof.Machine

/-- The reduction of the policy wrap (R9): a word differs from the number it is made of by a multiple of 2^64. -/
theorem toInt_ofInt_sub_emod (v : Int) : ((BitVec.ofInt 64 v : Word).toInt - v) % 2 ^ 64 = 0 := by
  rw [BitVec.toInt_ofInt]
  exact Int.emod_eq_zero_of_dvd (Int.dvd_bmod_sub_self (x := v) (m := 2 ^ 64))

/-- Settles O30, by the range check's answer in each case: in range, out of range under fault, and under wrap. -/
theorem overflowPolicyOfResults : Obligations.OverflowPolicyOfResults := fun v =>
  ⟨fun h p => ⟨BitVec.ofInt 64 v, toI64_of_fits p h, toInt_ofInt_of_fitsI64 h⟩,
    toI64_overflow,
    BitVec.ofInt 64 v, toI64_wrap v, toInt_ofInt_sub_emod v⟩

end Sys2Proof.Machine
end

section
/-! The obligations of spec 10_state.md: which step writes which piece of the state, from the effects of an
instruction and the ways of a step. -/

namespace Sys2Proof

/-- The write operand of an instruction, if its code has one (30_encoding.md R43). -/
def Instr.dest? : Instr → Option Operand
  | .add _ _ d => some d
  | .mul _ _ d => some d
  | .inp d => some d
  | .out _ => none
  | .jt _ _ => none
  | .jf _ _ => none
  | .lt _ _ d => some d
  | .eq _ _ d => some d
  | .arb _ => none
  | .hlt => none

theorem Instr.dest?_eq_some_iff {i : Instr} {d : Operand} :
    i.dest? = some d ↔
      i = .inp d ∨ ∃ x y, i = .add x y d ∨ i = .mul x y d ∨ i = .lt x y d ∨ i = .eq x y d := by
  cases i <;> simp [Instr.dest?]

end Sys2Proof

namespace Sys2Proof.Machine

/-! ### What an instruction leaves unchanged -/

/-- Only `arb` writes `rb` (R16). -/
theorem Effect.rb_eq_or_arb {i : Instr} {s t : State} (h : Effect i s t) :
    t.rb = s.rb ∨ ∃ a, i = .arb a := by
  cases h with
  | rebases => exact .inr ⟨_, rfl⟩
  | jumpsTrue | jumpsFalse => left; split <;> rfl
  | _ => exact .inl rfl

/-- Only `in` writes the pending slot, and only to empty it (R17). -/
theorem Effect.pending_eq_or_inp {i : Instr} {s t : State} (h : Effect i s t) :
    t.pending = s.pending ∨ t.pending = none ∧ ∃ d, i = .inp d := by
  cases h with
  | consumes => exact .inr ⟨rfl, _, rfl⟩
  | jumpsTrue | jumpsFalse => left; split <;> rfl
  | _ => exact .inl rfl

/-- Memory changes by one write at most, at the destination (R14). -/
theorem Effect.mem_eq_or_write {i : Instr} {s t : State} (h : Effect i s t) :
    t.mem = s.mem ∨
      ∃ d e v, i.dest? = some d ∧ s.WritesTo d e ∧ t.mem = s.mem.write e v := by
  cases h with
  | adds _ _ hd | multiplies _ _ hd | consumes hd | lessThan _ _ hd | equals _ _ hd =>
    exact .inr ⟨_, _, _, rfl, hd, rfl⟩
  | jumpsTrue | jumpsFalse => left; split <;> rfl
  | _ => exact .inl rfl

/-- No instruction writes `MEM_LEN` or a parameter (R22). -/
theorem Effect.memLen_config_eq {i : Instr} {s t : State} (h : Effect i s t) :
    t.memLen = s.memLen ∧ t.config = s.config := by
  cases h with
  | jumpsTrue | jumpsFalse => split <;> exact ⟨rfl, rfl⟩
  | _ => exact ⟨rfl, rfl⟩

/-- A cell that an instruction changes is the one its write operand resolves to (R14, R26). -/
theorem Effect.dest_of_cell_ne {i : Instr} {s t : State} (h : Effect i s t) {a : Nat}
    (hne : t.mem.read a ≠ s.mem.read a) : ∃ d, i.dest? = some d ∧ s.WritesTo d a := by
  rcases h.mem_eq_or_write with hm | ⟨d, e, v, hd, hw, hm⟩
  · exact absurd (by rw [hm]) hne
  · have hae : a = e := by
      by_contra hae
      exact hne (by rw [hm, Memory.read_write_other v hae])
    exact ⟨d, hd, hae ▸ hw⟩

/-! ### What a step leaves unchanged -/

/-- A step that executes no instruction changes the status and the latest result at most (R56, R95). -/
theorem step_only_status_or_effect {s t : State} (h : step s = .next t) :
    (∃ st r, t = { s with status := st, lastResult := r }) ∨ ∃ i, s.Executes i ∧ Effect i s t := by
  rcases step_next h with ⟨-, rfl⟩ | ⟨f, -, rfl⟩ | ⟨-, info, -, rfl⟩ | ⟨i, hi, -, he⟩
  · exact .inl ⟨_, _, rfl⟩
  · exact .inl ⟨_, _, rfl⟩
  · exact .inl ⟨_, _, rfl⟩
  · exact .inr ⟨i, hi, he⟩

theorem step_memLen_config_eq {s t : State} (h : step s = .next t) :
    t.memLen = s.memLen ∧ t.config = s.config := by
  rcases step_only_status_or_effect h with ⟨st, r, rfl⟩ | ⟨i, -, he⟩
  · exact ⟨rfl, rfl⟩
  · exact he.memLen_config_eq

/-- A step of a machine that has stopped changes the latest result at most (R56). -/
theorem step_of_not_running {s t : State} (hs : s.status ≠ .running) (h : step s = .next t) :
    ∃ r, t = { s with lastResult := r } := by
  rcases step_next h with ⟨-, rfl⟩ | ⟨f, -, rfl⟩ | ⟨hr, -⟩ | ⟨i, ⟨hr, -⟩, -⟩
  · exact ⟨_, rfl⟩
  · exact ⟨_, rfl⟩
  · exact absurd hr hs
  · exact absurd hr hs

/-- Steps of a machine that has stopped, however many, change the latest result at most (R19, R97). -/
theorem Steps.of_not_running {k : Nat} {s t : State} (h : Steps k s t) (hs : s.status ≠ .running) :
    ∃ r, t = { s with lastResult := r } := by
  induction h with
  | refl => exact ⟨_, rfl⟩
  | step hst _ ih =>
    obtain ⟨_, rfl⟩ := step_of_not_running hs hst
    exact ih hs

/-! ### The obligations -/

/-- Settles O23: a halted and a faulted machine are both not running, and stay as they are. -/
theorem endsAreAbsorbing : Obligations.EndsAreAbsorbing := by
  intro k s t h
  have unchanged (hs : s.status ≠ .running) : t = { s with lastResult := t.lastResult } := by
    obtain ⟨_, rfl⟩ := h.of_not_running hs
    rfl
  exact ⟨fun hh => unchanged (by simp [hh]), fun f hf => unchanged (by simp [hf])⟩

/-- Settles O24: a step that changes `rb` has an effect, and that of `arb` is the only one to write `rb`. -/
theorem onlyArbWritesRelativeBase : Obligations.OnlyArbWritesRelativeBase := by
  intro s t h hne
  rcases step_only_status_or_effect h with ⟨st, r, rfl⟩ | ⟨i, hi, he⟩
  · exact absurd rfl hne
  · obtain ⟨a, rfl⟩ := he.rb_eq_or_arb.resolve_left hne
    exact ⟨a, hi⟩

/-- Settles O25: a step that changes the slot has an effect, and that of `in` is the only one to write it. -/
theorem onlyInClearsPending : Obligations.OnlyInClearsPending := by
  intro s t h hne
  rcases step_only_status_or_effect h with ⟨st, r, rfl⟩ | ⟨i, hi, he⟩
  · exact absurd rfl hne
  · obtain ⟨hnone, d, rfl⟩ := he.pending_eq_or_inp.resolve_left hne
    exact ⟨hnone, d, hi⟩

/-- Settles O26: a step that changes a cell has an effect, whose one write is at the resolved destination. -/
theorem onlyDestinationCellsChange : Obligations.OnlyDestinationCellsChange := by
  intro s t a h hne
  rcases step_only_status_or_effect h with ⟨st, r, rfl⟩ | ⟨i, hi, he⟩
  · exact absurd rfl hne
  · obtain ⟨d, hd, hw⟩ := he.dest_of_cell_ne hne
    refine ⟨d, hw, ?_⟩
    rcases Instr.dest?_eq_some_iff.mp hd with rfl | ⟨x, y, rfl | rfl | rfl | rfl⟩
    · exact .inl hi
    · exact .inr ⟨x, y, .inl hi⟩
    · exact .inr ⟨x, y, .inr (.inl hi)⟩
    · exact .inr ⟨x, y, .inr (.inr (.inl hi))⟩
    · exact .inr ⟨x, y, .inr (.inr (.inr hi))⟩

/-- Settles O27, by induction on the steps. -/
theorem parametersNeverChange : Obligations.ParametersNeverChange := by
  intro k s t h
  induction h with
  | refl => exact ⟨rfl, rfl⟩
  | step hst _ ih =>
    obtain ⟨hmemLen, hconfig⟩ := step_memLen_config_eq hst
    obtain ⟨ihMemLen, ihConfig⟩ := ih
    exact ⟨ihMemLen.trans hmemLen, ihConfig.trans hconfig⟩

/-- Settles O45: the fields of `State.reset`. -/
theorem resetValues : Obligations.ResetValues := ⟨rfl, rfl, rfl, rfl⟩

end Sys2Proof.Machine
end

section
/-! The obligations of spec 20_memory.md: the frame of memory and of the ports, and the invariant that every step
keeps. -/

namespace Sys2Proof.Machine

/-! ### Memory stays canonical and inside `MEM_LEN` -/

/-- A write inside `MEM_LEN` keeps memory canonical and inside `MEM_LEN` (R23, R26). -/
theorem State.memOk.store {s : State} (h : s.memOk) {d : Nat} (hd : d < s.memLen.val) (v : Word) :
    (s.store d v).memOk := by
  obtain ⟨hwf, hlt⟩ := h
  refine ⟨Memory.write_wf hwf d v, fun p hp => ?_⟩
  rcases Memory.mem_write hp with hp | ⟨rfl, -⟩
  · exact hlt p hp
  · exact hd

/-- The memory an instruction leaves is canonical and inside `MEM_LEN`: its one write is at a resolved
destination. -/
theorem Effect.memOk {i : Instr} {s t : State} (he : Effect i s t) (h : s.memOk) : t.memOk := by
  obtain ⟨hlen, -⟩ := he.memLen_config_eq
  rcases he.mem_eq_or_write with hm | ⟨d, e, v, -, hw, hm⟩
  · unfold State.memOk
    rwa [hm, hlen]
  · have hs := h.store hw.lt_memLen v
    unfold State.memOk at hs ⊢
    rwa [hm, hlen]

theorem step_memOk {s t : State} (hst : step s = .next t) (h : s.memOk) : t.memOk := by
  rcases step_only_status_or_effect hst with ⟨st, r, rfl⟩ | ⟨i, -, he⟩
  · exact h
  · exact he.memOk h

/-! ### The latest result and the latch -/

/-- A running instance after a step that reported neither its halt nor a fault (R55). -/
def State.Onward (t : State) : Prop :=
  t.status = .running ∧ t.lastResult ≠ some .halted ∧ ∀ f, t.lastResult ≠ some (.fault f)

/-- An instruction ends in a fault it takes, in the halt, or leaves the machine running. -/
theorem Effect.ends {i : Instr} {s t : State} (he : Effect i s t) (hs : s.status = .running) :
    (∃ info, info.Legal s ∧ t = s.takeFault info) ∨
      (t.status = .halted ∧ t.lastResult = some .halted) ∨ t.Onward := by
  cases he with
  | faults hl => exact .inl ⟨_, hl, rfl⟩
  | halts => exact .inr (.inl ⟨rfl, rfl⟩)
  | jumpsTrue | jumpsFalse => right; right; split <;> exact ⟨hs, nofun, nofun⟩
  | _ => exact .inr (.inr ⟨hs, nofun, nofun⟩)

/-- How a step can end: halted, with the latched fault reported again, with a fault taken in the state it started
in, or running (R55, R56, R95). -/
theorem step_ends {s t : State} (hst : step s = .next t) :
    (t.status = .halted ∧ t.lastResult = some .halted) ∨
      (∃ f, s.status = .faulted f ∧ t = s.report (.fault f)) ∨
      (∃ info, info.Legal s ∧ t = s.takeFault info) ∨ t.Onward := by
  rcases step_next hst with ⟨hs, rfl⟩ | hf | ⟨-, hf⟩ | ⟨i, ⟨hs, -⟩, -, he⟩
  · exact .inl ⟨hs, rfl⟩
  · exact .inr (.inl hf)
  · exact .inr (.inr (.inl hf))
  · rcases he.ends hs with hf | hh | ho
    · exact .inr (.inr (.inl hf))
    · exact .inl hh
    · exact .inr (.inr (.inr ho))

theorem State.resultOk_of_halted {t : State} (hs : t.status = .halted) (hr : t.lastResult = some .halted) :
    t.resultOk := by
  simp [State.resultOk, hs, hr]

theorem State.resultOk_of_faulted {t : State} {f : FaultRecord} (hs : t.status = .faulted f)
    (hr : t.lastResult = some (.fault f)) : t.resultOk := by
  simp [State.resultOk, hs, hr]

theorem State.Onward.resultOk {t : State} (h : t.Onward) : t.resultOk := by
  obtain ⟨hs, hhalt, hfault⟩ := h
  simp [State.resultOk, hs, hhalt, hfault]

/-- After any step, from whatever state, the reported result agrees with the status (R55). -/
theorem step_resultOk {s t : State} (hst : step s = .next t) : t.resultOk := by
  rcases step_ends hst with ⟨hs, hr⟩ | ⟨f, hf, rfl⟩ | ⟨info, -, rfl⟩ | ho
  · exact State.resultOk_of_halted hs hr
  · exact State.resultOk_of_faulted hf rfl
  · exact State.resultOk_of_faulted rfl rfl
  · exact ho.resultOk

/-- A machine that is not faulted has nothing in its latch. -/
theorem State.latchOk_of_not_faulted {t : State} (h : ∀ f, t.status ≠ .faulted f) : t.latchOk :=
  fun f hf => absurd hf (h f)

/-- A fault taken latches a record of the very state it was raised in (R94, R95). -/
theorem State.takeFault_latchOk {s : State} {info : FaultInfo} (hl : info.Legal s) :
    (s.takeFault info).latchOk := by
  rintro f ⟨⟩
  exact ⟨rfl, rfl, rfl, hl.addr_iff, hl.overflow⟩

theorem State.latchOk.report {s : State} (h : s.latchOk) (r : StepResult) : (s.report r).latchOk := h

theorem step_latchOk {s t : State} (hst : step s = .next t) (h : s.latchOk) : t.latchOk := by
  rcases step_ends hst with ⟨hs, -⟩ | ⟨f, -, rfl⟩ | ⟨info, hl, rfl⟩ | ⟨hs, -⟩
  · exact State.latchOk_of_not_faulted (by simp [hs])
  · exact h.report _
  · exact State.takeFault_latchOk hl
  · exact State.latchOk_of_not_faulted (by simp [hs])

/-! ### The obligations -/

/-- Settles O57, one part of the invariant at a time. -/
theorem stepKeepsTheInvariant : Obligations.StepKeepsTheInvariant := fun _ _ h hst =>
  ⟨step_memOk hst h.memOk, step_resultOk hst, step_latchOk hst h.latchOk⟩

/-- Settles O28, by the laws of a write. -/
theorem writeReplacesOneCell : Obligations.WriteReplacesOneCell := fun _ a v h =>
  ⟨Memory.read_write_same h a v, fun _ hb => Memory.read_write_other v hb, Memory.write_wf h a v⟩

/-- Settles O29: the first cell fetched is the one at `ip`, where the write is read back. -/
theorem storedCellIsFetched : Obligations.StoredCellIsFetched := by
  intro s t d v hwf hd hmem hlen hip
  have hread : t.mem.read d = v := by rw [hmem, State.store_mem, Memory.read_write_same hwf]
  rw [List.head?_eq_getElem?]
  refine (State.cellsFrom_getElem? (by decide)).mpr ?_
  simp [hip, hlen, hd, hread]

/-- Settles O55: both operations replace entry `k` of the list of instances and no other. -/
theorem instancesShareNoState : Obligations.InstancesShareNoState := by
  intro is k j hjk
  refine ⟨fun v => List.getElem?_modify_ne _ is hjk.symm, ?_⟩
  rintro e js ⟨s, t, -, -, rfl⟩
  exact ⟨List.getElem?_set_ne hjk.symm, List.length_set⟩

end Sys2Proof.Machine
end

section
/-! The obligations of spec 30_encoding.md: an opcode word is the decimal number of its code and mode digits, from
which the table of legal words and both round trips follow. -/

namespace Sys2Proof

/-! ### The legal modes of an instruction and their number -/

/-- The modes that are legal for a role (R44). -/
def Role.modes : Role → List Mode
  | .read => [.position, .immediate, .relative]
  | .write => [.position, .relative]

theorem Role.mem_modes_iff {r : Role} {m : Mode} : m ∈ r.modes ↔ ¬ (r = .write ∧ m = .immediate) := by
  cases r <;> cases m <;> decide

/-- The legal modes of an operand list with these roles, in the order of R49's table: the first operand's mode
varies fastest. -/
def legalModes : List Role → List (List Mode)
  | [] => [[]]
  | r :: rs => (legalModes rs).flatMap fun ms => r.modes.map (· :: ms)

theorem cons_mem_legalModes_iff {r : Role} {rs : List Role} {m : Mode} {ms : List Mode} :
    m :: ms ∈ legalModes (r :: rs) ↔ m ∈ r.modes ∧ ms ∈ legalModes rs := by
  simp [legalModes, and_comm]

theorem nil_not_mem_legalModes_cons {r : Role} {rs : List Role} : [] ∉ legalModes (r :: rs) := by
  simp [legalModes]

/-- The number whose decimal digits, from the lowest, are the mode digits. -/
def modesNumber : List Mode → Nat
  | [] => 0
  | m :: ms => m.digit + 10 * modesNumber ms

theorem modesNumber_lt_of_mem_legalModes {roles : List Role} {ms : List Mode} (h : ms ∈ legalModes roles) :
    modesNumber ms < 10 ^ roles.length := by
  induction roles generalizing ms with
  | nil =>
    obtain rfl := List.mem_singleton.mp h
    exact Nat.one_pos
  | cons r rs ih =>
    cases ms with
    | nil => exact absurd h nil_not_mem_legalModes_cons
    | cons m ms =>
      obtain ⟨-, hms⟩ := cons_mem_legalModes_iff.mp h
      have := ih hms
      have := m.digit_lt
      rw [modesNumber, List.length_cons, Nat.pow_succ]
      omega

/-- One turn of the loop of R59: the digit is the operand's mode, legal for its role, and the loop accepts the
rest. -/
theorem decodeModes_cons_ok_iff {w k : Nat} {r : Role} {rs : List Role} {m : Mode} {ms : List Mode} :
    decodeModes w (r :: rs) k = .ok (m :: ms) ↔
      dig w (k + 2) = m.digit ∧ m ∈ r.modes ∧ decodeModes w rs (k + 1) = .ok ms := by
  rw [Role.mem_modes_iff, ← Mode.ofDigit?_eq_some_iff]
  conv_lhs => unfold decodeModes
  rcases Mode.ofDigit? (dig w (k + 2)) with _ | m'
  · simp
  · by_cases hbad : r = .write ∧ m' = .immediate
    · simp +contextual [hbad]
    · rcases decodeModes w rs (k + 1) with e | ms'
      · simp [hbad]
      · simp only [if_neg hbad, Except.ok.injEq, List.cons.injEq, Option.some.injEq]
        constructor
        · rintro ⟨rfl, rfl⟩
          exact ⟨rfl, hbad, rfl⟩
        · rintro ⟨rfl, -, rfl⟩
          exact ⟨rfl, rfl⟩

/-- A number's lowest digits and its higher ones, to the base `k`. -/
theorem mod_mul_eq_add_mul_iff {n k l a b : Nat} (ha : a < k) :
    n % (k * l) = a + k * b ↔ n % k = a ∧ n / k % l = b := by
  rw [Nat.mod_mul]
  constructor
  · intro h
    have hlow : n % k = a := by
      simpa [Nat.add_mul_mod_self_left, Nat.mod_eq_of_lt ha] using congrArg (· % k) h
    rw [hlow] at h
    exact ⟨hlow, Nat.eq_of_mul_eq_mul_left (Nat.zero_lt_of_lt ha) (Nat.add_left_cancel h)⟩
  · rintro ⟨rfl, rfl⟩
    rfl

/-- The loop of R59 accepts the modes that are legal for the roles and whose digits stand in the word from the
loop's position on. -/
theorem decodeModes_ok_iff_number {w k : Nat} {roles : List Role} {ms : List Mode} :
    decodeModes w roles k = .ok ms ↔
      ms ∈ legalModes roles ∧ w / 10 ^ (k + 2) % 10 ^ roles.length = modesNumber ms := by
  induction roles generalizing k ms with
  | nil => cases ms <;> simp [decodeModes, legalModes, modesNumber, Nat.mod_one]
  | cons r rs ih =>
    cases ms with
    | nil =>
      refine iff_of_false (fun h => ?_) fun h => nil_not_mem_legalModes_cons h.1
      simpa using (decodeModes_ok_iff.mp h).1
    | cons m ms =>
      have hm : m.digit < 10 := m.digit_lt.trans (by decide)
      rw [decodeModes_cons_ok_iff, ih, cons_mem_legalModes_iff, List.length_cons, Nat.pow_succ' (n := rs.length),
        modesNumber, mod_mul_eq_add_mul_iff hm, Nat.div_div_eq_div_mul, ← Nat.pow_succ, dig,
        Nat.add_right_comm k 1 2]
      tauto

/-! ### Opcode words -/

/-- The number of the opcode word of a code and its modes. -/
def Code.wordNumber (c : Code) (ms : List Mode) : Nat := c.number + 100 * modesNumber ms

theorem Code.number_lt (c : Code) : c.number < 100 := by cases c <;> decide

theorem Code.wordNumber_lt {c : Code} {ms : List Mode} (h : ms ∈ legalModes c.roles) :
    c.wordNumber ms < 10 ^ (2 + c.nops) := by
  have hms := modesNumber_lt_of_mem_legalModes h
  have hc := c.number_lt
  rw [Code.wordNumber, Nat.pow_add, Code.nops]
  omega

/-- A word decodes to a code and modes iff its digits below `10^(2+n)` spell them, and no excess digits stand
above under strict mode digits (R47, R51). -/
theorem decodeOpcode_ok_iff_number {strict : Bool} {w : Word} {c : Code} {ms : List Mode} :
    decodeOpcode strict w = .ok (c, ms) ↔
      0 ≤ w.toInt ∧ ms ∈ legalModes c.roles ∧ w.toNat % 10 ^ (2 + c.nops) = c.wordNumber ms ∧
        ¬ (strict = true ∧ w.toNat / 10 ^ (2 + c.nops) ≠ 0) := by
  have hnumber : w.toNat % 10 ^ (2 + c.nops) = c.wordNumber ms ↔
      w.toNat % 100 = c.number ∧ w.toNat / 10 ^ (0 + 2) % 10 ^ c.roles.length = modesNumber ms := by
    rw [Nat.pow_add]
    exact mod_mul_eq_add_mul_iff c.number_lt
  rw [decodeOpcode_ok_iff, decodeModes_ok_iff_number, hnumber]
  tauto

/-- A word decodes to a code and modes under strict mode digits iff it is their number. -/
theorem decodeOpcode_strict_ok_iff {w : Word} {c : Code} {ms : List Mode} :
    decodeOpcode true w = .ok (c, ms) ↔
      0 ≤ w.toInt ∧ ms ∈ legalModes c.roles ∧ w.toNat = c.wordNumber ms := by
  rw [decodeOpcode_ok_iff_number]
  refine and_congr_right fun _ => and_congr_right fun hms => ?_
  have hlt := Code.wordNumber_lt hms
  simp only [true_and, ne_eq, not_not, Nat.div_eq_zero_iff_lt (Nat.pow_pos (by decide : 0 < 10))]
  constructor
  · rintro ⟨hmod, hw⟩
    rwa [Nat.mod_eq_of_lt hw] at hmod
  · intro hw
    rw [← hw] at hlt
    exact ⟨(Nat.mod_eq_of_lt hlt).trans hw, hlt⟩

theorem decodeOpcode_strict_injective {w w' : Word} {c : Code} {ms : List Mode}
    (h : decodeOpcode true w = .ok (c, ms)) (h' : decodeOpcode true w' = .ok (c, ms)) : w = w' := by
  obtain ⟨-, -, hw⟩ := decodeOpcode_strict_ok_iff.mp h
  obtain ⟨-, -, hw'⟩ := decodeOpcode_strict_ok_iff.mp h'
  exact BitVec.eq_of_toNat_eq (hw.trans hw'.symm)

/-- The opcode word of an instruction with an encoding decodes to its code and modes. -/
theorem decodeOpcode_opcodeWord {i : Instr} (h : i.wf = true) (strict : Bool) :
    decodeOpcode strict i.opcodeWord = .ok (i.code, i.operands.map Operand.mode) :=
  match i with
  | .add a b d => Laws.OpcodeWord.add a b d h strict
  | .mul a b d => Laws.OpcodeWord.mul a b d h strict
  | .inp d => Laws.OpcodeWord.inp d h strict
  | .out a => Laws.OpcodeWord.out a h strict
  | .jt cond target => Laws.OpcodeWord.jt cond target h strict
  | .jf cond target => Laws.OpcodeWord.jf cond target h strict
  | .lt a b d => Laws.OpcodeWord.lt a b d h strict
  | .eq a b d => Laws.OpcodeWord.eq a b d h strict
  | .arb a => Laws.OpcodeWord.arb a h strict
  | .hlt => Laws.OpcodeWord.hlt h strict

/-- The opcode word is the number of the formula (R51): it fits. -/
theorem Instr.toInt_opcodeWord (i : Instr) : i.opcodeWord.toInt = i.opcodeNumber := by
  have hdigit (k : Nat) : modeDigit i.operands k < 3 := by
    unfold modeDigit
    split
    · exact Mode.digit_lt _
    · decide
  have h0 := hdigit 0
  have h1 := hdigit 1
  have h2 := hdigit 2
  have hc := i.code.number_lt
  have hlt : i.opcodeNumber < 2 ^ 63 := by
    unfold Instr.opcodeNumber
    omega
  rw [Instr.opcodeWord, BitVec.toInt_ofNat']
  exact Int.bmod_eq_of_le (by omega) (by omega)

theorem Operand.writable_iff {o : Operand} : o.writable = true ↔ o.mode ≠ .immediate := by
  obtain ⟨m, raw⟩ := o
  cases m <;> simp [Operand.writable]

/-- An instruction has an encoding iff its modes are legal for its operands' roles (R44). -/
theorem Instr.wf_iff_legalModes {i : Instr} :
    i.wf = true ↔ i.operands.map Operand.mode ∈ legalModes i.code.roles := by
  cases i <;> simp [Instr.wf, Instr.operands, Instr.code, Code.roles, Role.mem_modes_iff,
    Operand.writable_iff, legalModes]

/-! ### The table of legal words -/

/-- The table of R49: in each row the numbers of the code's legal modes. -/
theorem legalWords_eq (c : Code) :
    Machine.legalWords c = (legalModes c.roles).map fun ms => (c.wordNumber ms : Int) := by
  cases c <;> decide

theorem natCast_mem_legalWords_iff {n : Nat} {c : Code} :
    (n : Int) ∈ Machine.legalWords c ↔ ∃ ms ∈ legalModes c.roles, n = c.wordNumber ms := by
  simp [legalWords_eq, eq_comm]

theorem zero_le_of_mem_legalWords {x : Int} {c : Code} (h : x ∈ Machine.legalWords c) : 0 ≤ x := by
  rw [legalWords_eq] at h
  obtain ⟨ms, -, rfl⟩ := List.mem_map.mp h
  exact Int.natCast_nonneg _

theorem toInt_eq_toNat_of_nonneg {w : Word} (h : 0 ≤ w.toInt) : w.toInt = w.toNat := by
  rw [BitVec.toInt_eq_toNat_cond] at h ⊢
  omega

/-- Strict decoding accepts the words of the table. -/
theorem exists_decodeOpcode_strict_iff {w : Word} {c : Code} :
    (∃ ms, decodeOpcode true w = .ok (c, ms)) ↔ w.toInt ∈ Machine.legalWords c := by
  simp only [decodeOpcode_strict_ok_iff]
  constructor
  · rintro ⟨ms, h0, hms, hw⟩
    rw [toInt_eq_toNat_of_nonneg h0]
    exact natCast_mem_legalWords_iff.mpr ⟨ms, hms, hw⟩
  · intro h
    have h0 := zero_le_of_mem_legalWords h
    rw [toInt_eq_toNat_of_nonneg h0] at h
    obtain ⟨ms, hms, hw⟩ := natCast_mem_legalWords_iff.mp h
    exact ⟨ms, h0, hms, hw⟩

/-- Lax decoding accepts the nonnegative words whose digits below `10^(2+n)` are a word of the table. -/
theorem exists_decodeOpcode_lax_iff {w : Word} {c : Code} :
    (∃ ms, decodeOpcode false w = .ok (c, ms)) ↔
      0 ≤ w.toInt ∧ w.toInt % 10 ^ (2 + c.nops) ∈ Machine.legalWords c := by
  simp only [decodeOpcode_ok_iff_number, Bool.false_eq_true, false_and, not_false_eq_true, and_true,
    exists_and_left]
  refine and_congr_right fun h0 => ?_
  rw [toInt_eq_toNat_of_nonneg h0, ← natCast_mem_legalWords_iff]
  norm_cast

/-- The words of a row all have its code as their lowest two digits. -/
theorem emod_hundred_of_mem_legalWords {x : Int} {c : Code} (h : x ∈ Machine.legalWords c) :
    x % 100 = c.number := by
  rw [legalWords_eq] at h
  obtain ⟨ms, -, rfl⟩ := List.mem_map.mp h
  have := c.number_lt
  rw [Code.wordNumber]
  omega

/-! ### Cells -/

theorem decode_cons_of_decodeOpcode_error {strict : Bool} {w : Word} {r : Reject}
    (h : decodeOpcode strict w = .error r) (rest : List Word) : decode strict (w :: rest) = .error r := by
  simp [decode, h]

/-- Operands are paired from modes and the cells that follow the opcode word, one cell for each mode. -/
theorem eq_zipWith_iff {ops : List Operand} {ms : List Mode} {rest : List Word} (h : ops.length = ms.length) :
    ops = List.zipWith Operand.mk ms rest ↔
      ms = ops.map Operand.mode ∧ ∃ tail, rest = ops.map Operand.raw ++ tail := by
  induction ops generalizing ms rest with
  | nil =>
    obtain rfl := List.length_eq_zero_iff.mp h.symm
    simp
  | cons o ops ih =>
    obtain ⟨m, ms, rfl⟩ := List.exists_cons_of_length_eq_add_one h.symm
    have hl : ops.length = ms.length := by simpa using h
    cases rest with
    | nil => simp
    | cons p rest =>
      obtain ⟨om, oraw⟩ := o
      simp only [List.zipWith_cons_cons, List.cons.injEq, Operand.mk.injEq, ih hl, List.map_cons, List.cons_append,
        exists_and_left]
      tauto

/-- Decoding accepts an instruction from an opcode word with its code and modes and its raw operands after it. -/
theorem decode_ok_iff_cells {strict : Bool} {cells : List Word} {i : Instr} :
    decode strict cells = .ok i ↔
      ∃ w tail, cells = w :: (i.operands.map Operand.raw ++ tail) ∧
        decodeOpcode strict w = .ok (i.code, i.operands.map Operand.mode) := by
  rw [decode_ok_iff]
  constructor
  · rintro ⟨w, rest, ms, rfl, hw, ho⟩
    have hl : i.operands.length = ms.length := i.operands_length.trans (decodeOpcode_length hw).symm
    obtain ⟨rfl, tail, rfl⟩ := (eq_zipWith_iff hl).mp ho
    exact ⟨w, tail, rfl, hw⟩
  · rintro ⟨w, tail, rfl, hw⟩
    exact ⟨w, _, _, rfl, hw, (eq_zipWith_iff (List.length_map _).symm).mpr ⟨rfl, tail, rfl⟩⟩

end Sys2Proof

namespace Sys2Proof.Machine

/-! ### The fault of a rejected opcode word -/

/-- The first cell fetched is the one at `ip`. -/
theorem State.fetchCells_of_cell? {s : State} {w : Word} (h : s.cell? s.ip.toInt = some w) :
    ∃ rest, s.fetchCells = w :: rest := by
  unfold State.fetchCells longestInstr State.cellsFrom
  exact ⟨_, by rw [h]⟩

/-- An opcode word that the decoder rejects is a fault (R57 to R59). -/
theorem step_of_decodeOpcode_error {s : State} {w : Word} {r : Reject} (hs : s.status = .running)
    (hw : s.cell? s.ip.toInt = some w) (h : decodeOpcode s.config.strictModeDigits w = .error r) :
    step s = .next (s.takeFault (s.rejectFault r)) := by
  obtain ⟨rest, hcells⟩ := State.fetchCells_of_cell? hw
  exact step_of_reject hs (hcells ▸ decode_cons_of_decodeOpcode_error h rest)

/-! ### The fault of an immediate write operand -/

theorem checkWriteMode_immediate (k : Nat) {d : Operand} (h : d.mode = .immediate) :
    checkWriteMode k d = .error { kind := .illegalWriteMode, operand := some k } :=
  if_neg fun hw => Operand.writable_iff.mp hw h

/-- Format RRW with an immediate destination. -/
theorem State.withRRW_immediate (s : State) (a b : Operand) {d : Operand} (h : d.mode = .immediate)
    (body : Word → Word → Nat → Except FaultInfo State) :
    s.withRRW a b d body = .next (s.takeFault { kind := .illegalWriteMode, operand := some 2 }) := by
  unfold State.withRRW
  rw [checkWriteMode_immediate 2 h]
  rfl

/-- Format W with an immediate destination. -/
theorem State.withW_immediate (s : State) {d : Operand} (h : d.mode = .immediate)
    (body : Nat → Except FaultInfo State) :
    s.withW d body = .next (s.takeFault { kind := .illegalWriteMode, operand := some 0 }) := by
  unfold State.withW
  rw [checkWriteMode_immediate 0 h]
  rfl

/-! ### The obligations -/

/-- Settles O5: the encoded cells are an opcode word that decodes to the instruction's code and modes, and its raw
operands. -/
theorem decodeInvertsEncode : Obligations.DecodeInvertsEncode := fun _ strict rest h =>
  decode_ok_iff_cells.mpr ⟨_, rest, rfl, decodeOpcode_opcodeWord h strict⟩

/-- Settles O6: what the decoder accepts has legal modes, and its opcode word is the only one with them. -/
theorem encodeInvertsStrictDecode : Obligations.EncodeInvertsStrictDecode := by
  intro i cells h
  obtain ⟨w, tail, rfl, hw⟩ := decode_ok_iff_cells.mp h
  obtain ⟨-, hms, -⟩ := decodeOpcode_strict_ok_iff.mp hw
  have hwf := Instr.wf_iff_legalModes.mpr hms
  obtain rfl := decodeOpcode_strict_injective hw (decodeOpcode_opcodeWord hwf true)
  exact ⟨hwf, tail, rfl⟩

/-- Settles O4, by the number of an opcode word, which no two words share. -/
theorem opcodeWordIsTheUniqueStrictWord : Obligations.OpcodeWordIsTheUniqueStrictWord := by
  intro i h
  have hdecodes := decodeOpcode_opcodeWord h true
  refine ⟨?_, hdecodes, fun w hw => decodeOpcode_strict_injective hw hdecodes⟩
  rw [i.toInt_opcodeWord, Instr.opcodeNumber]
  push_cast
  rfl

/-- Settles O7: the words accepted are those of the table, and one that is rejected faults. -/
theorem legalWordsAreTheTable : Obligations.LegalWordsAreTheTable := by
  refine ⟨by decide, fun _ _ => exists_decodeOpcode_strict_iff, fun w c => ?_, fun s w hs hstrict hw hout => ?_⟩
  · rw [exists_decodeOpcode_lax_iff]
    refine and_congr_right fun _ => ⟨fun h => ⟨?_, h⟩, And.right⟩
    have hdvd : (100 : Int) ∣ 10 ^ (2 + c.nops) := pow_dvd_pow 10 (Nat.le_add_right 2 c.nops)
    rw [← emod_hundred_of_mem_legalWords h, Int.emod_emod_of_dvd _ hdvd]
  · rcases h : decodeOpcode true w with r | ⟨c, ms⟩
    · exact ⟨_, step_of_decodeOpcode_error hs hw (hstrict ▸ h)⟩
    · exact absurd (exists_decodeOpcode_strict_iff.mp ⟨ms, h⟩) (hout c)

/-- Settles O9: a fetch is the four cells from `ip` on. -/
theorem fetchedCellsAreMemoryAtIp : Obligations.FetchedCellsAreMemoryAtIp := fun _ _ _ hk =>
  State.cellsFrom_getElem? hk

/-- Settles O1, by evaluating the ten rows. -/
theorem codeTableAsSpecified : Obligations.CodeTableAsSpecified := rfl

/-- Settles O2, by decoding each word. -/
theorem exampleWordsDecode : Obligations.ExampleWordsDecode :=
  ⟨by decide, by decide, by decide, by decide, by decide, by decide, by decide, by decide, by decide, by decide⟩

/-- Settles O3: a `jmp` is well formed in any mode, a `mov` when its destination is not immediate, and the cells are
their encoding. -/
theorem pseudoInstructionsExpand : Obligations.PseudoInstructionsExpand := by
  refine ⟨fun _ => rfl, fun _ => rfl, fun _ => rfl, fun src dst h => ?_⟩
  exact if_pos (Operand.writable_iff.mpr h)

/-- Settles O16: the role check of the operand shapes comes before the instruction's own meaning. -/
theorem immediateWriteOperandFaults : Obligations.ImmediateWriteOperandFaults := by
  intro s a b d h
  refine ⟨?_, s.withW_immediate h _⟩
  rintro i (rfl | rfl | rfl | rfl) <;> exact s.withRRW_immediate a b h _

end Sys2Proof.Machine
end

section
/-! The obligations of spec 40_dispatch.md: the order of the faults of fetch, decode and operand resolution, the
results of a step and the ways of `ip`, the frames of the instructions, and how a run ends. -/

namespace Sys2Proof

/-! ### The opcode word -/

theorem Code.number_injective : Function.Injective Code.number := fun _ _ h =>
  Option.some.inj ((Code.ofNumber?_eq_some_iff.mpr rfl).symm.trans (Code.ofNumber?_eq_some_iff.mpr h))

/-- A nonnegative word is a number, and its code the number's lowest two digits. -/
theorem toNat_mod_hundred_eq_iff {w : Word} (h0 : 0 ≤ w.toInt) {n : Nat} :
    w.toNat % 100 = n ↔ w.toInt % 100 = n := by
  rw [toInt_eq_toNat_of_nonneg h0]
  norm_cast

/-- The words that R58 rejects. -/
theorem decodeOpcode_of_no_code {w : Word} (strict : Bool)
    (h : w.toInt < 0 ∨ ∀ c : Code, w.toInt % 100 ≠ c.number) : decodeOpcode strict w = .error .illegalOpcode := by
  unfold decodeOpcode
  split
  · rfl
  · rename_i h0
    have hno : Code.ofNumber? (w.toNat % 100) = none := Code.ofNumber?_eq_none_iff.mpr fun c hc =>
      h.resolve_left h0 c ((toNat_mod_hundred_eq_iff (Int.not_lt.mp h0)).mp hc)
    rw [hno]

/-- On a word with a code of the table, what is left is the check of R59: excess digits, then the mode digits. -/
theorem decodeOpcode_of_code {w : Word} {c : Code} (strict : Bool) (h0 : 0 ≤ w.toInt)
    (hc : w.toInt % 100 = c.number) :
    decodeOpcode strict w =
      if strict = true ∧ w.toNat / 10 ^ (2 + c.nops) ≠ 0 then .error (.illegalParameterMode none)
      else (decodeModes w.toNat c.roles 0).map (c, ·) := by
  unfold decodeOpcode
  rw [if_neg (Int.not_lt.mpr h0), Code.ofNumber?_eq_some_iff.mpr ((toNat_mod_hundred_eq_iff h0).mpr hc)]
  simp only
  cases decodeModes w.toNat c.roles 0 <;> rfl

/-! ### The loop over the mode digits -/

/-- One turn of the loop of R59 on a digit that names a mode which is legal for the role. -/
theorem decodeModes_cons_of_legal {w k : Nat} {r : Role} {m : Mode} (hd : dig w (k + 2) = m.digit)
    (hm : ¬ (r = .write ∧ m = .immediate)) (rs : List Role) :
    decodeModes w (r :: rs) k = (decodeModes w rs (k + 1)).map (m :: ·) := by
  conv_lhs => unfold decodeModes
  rw [Mode.ofDigit?_eq_some_iff.mpr hd]
  simp only [if_neg hm]
  cases decodeModes w rs (k + 1) <;> rfl

theorem decodeModes_cons_of_no_mode {w k : Nat} (hd : 3 ≤ dig w (k + 2)) (r : Role) (rs : List Role) :
    decodeModes w (r :: rs) k = .error (.illegalParameterMode (some k)) := by
  unfold decodeModes
  rw [Mode.ofDigit?_eq_none_iff.mpr hd]

theorem decodeModes_cons_of_immediate_write {w k : Nat} (hd : dig w (k + 2) = 1) (rs : List Role) :
    decodeModes w (.write :: rs) k = .error (.illegalWriteMode k) := by
  unfold decodeModes
  rw [show Mode.ofDigit? (dig w (k + 2)) = some .immediate from Mode.ofDigit?_eq_some_iff.mpr hd]
  rfl

/-- A mode digit that passes both checks of R59 for its operand's role. -/
abbrev Role.AcceptsDigit (r : Role) (d : Nat) : Prop := d < 3 ∧ ¬ (r = .write ∧ d = 1)

theorem Role.AcceptsDigit.exists_mode {r : Role} {d : Nat} (h : r.AcceptsDigit d) :
    ∃ m : Mode, d = m.digit ∧ ¬ (r = .write ∧ m = .immediate) := by
  obtain ⟨hlt, hw⟩ := h
  rcases hm : Mode.ofDigit? d with _ | m
  · exact absurd (Mode.ofDigit?_eq_none_iff.mp hm) (Nat.not_le.mpr hlt)
  · obtain rfl := Mode.ofDigit?_eq_some_iff.mp hm
    refine ⟨m, rfl, ?_⟩
    rintro ⟨hr, rfl⟩
    exact hw ⟨hr, rfl⟩

/-- The loop of R59 gets past the operands whose digits are accepted, so the first one rejected decides. -/
theorem decodeModes_error_of_drop {w j k : Nat} {roles : List Role} {e : Reject}
    (hacc : ∀ i r, i < j → roles[i]? = some r → r.AcceptsDigit (dig w (k + i + 2)))
    (h : decodeModes w (roles.drop j) (k + j) = .error e) : decodeModes w roles k = .error e := by
  induction j generalizing k roles with
  | zero => exact h
  | succ j ih =>
    cases roles with
    | nil => cases h
    | cons r rs =>
      obtain ⟨m, hd, hm⟩ := (hacc 0 r (Nat.succ_pos j) rfl).exists_mode
      have hrest : decodeModes w rs (k + 1) = .error e := by
        refine ih (fun i r' hi hr' => ?_) ?_
        · rw [Nat.add_right_comm k 1 i]
          exact hacc (i + 1) r' (Nat.succ_lt_succ hi) hr'
        · rwa [Nat.add_right_comm k 1 j]
      rw [decodeModes_cons_of_legal hd hm, hrest]
      rfl

/-- The loop of R59 never rejects with R58's illegal opcode. -/
theorem decodeModes_ne_illegalOpcode (w : Nat) (roles : List Role) (k : Nat) :
    decodeModes w roles k ≠ .error .illegalOpcode := by
  induction roles generalizing k with
  | nil => exact nofun
  | cons r rs ih =>
    by_cases hacc : r.AcceptsDigit (dig w (k + 2))
    · obtain ⟨m, hd, hm⟩ := hacc.exists_mode
      rw [decodeModes_cons_of_legal hd hm]
      rcases hrest : decodeModes w rs (k + 1) with e | ms
      · rintro ⟨⟩
        exact ih (k + 1) hrest
      · exact nofun
    · rcases not_and_or.mp hacc with hd | hw
      · rw [decodeModes_cons_of_no_mode (Nat.not_lt.mp hd)]
        exact nofun
      · obtain ⟨rfl, h1⟩ := not_not.mp hw
        rw [decodeModes_cons_of_immediate_write h1]
        exact nofun

/-- A nonnegative word with a code of the table is not rejected as an illegal opcode. -/
theorem decodeOpcode_ne_illegalOpcode {w : Word} {c : Code} (strict : Bool) (h0 : 0 ≤ w.toInt)
    (hc : w.toInt % 100 = c.number) : decodeOpcode strict w ≠ .error .illegalOpcode := by
  rw [decodeOpcode_of_code strict h0 hc]
  split
  · exact nofun
  · rcases hd : decodeModes w.toNat c.roles 0 with e | ms
    · rintro ⟨⟩
      exact decodeModes_ne_illegalOpcode _ _ _ hd
    · exact nofun

/-- The rejection of operand `k`, the first whose digit is not accepted, is that of the loop. -/
theorem decodeModes_error_at {w k : Nat} {r : Role} {roles : List Role} {e : Reject} (hr : roles[k]? = some r)
    (hacc : ∀ j r', j < k → roles[j]? = some r' → r'.AcceptsDigit (dig w (j + 2)))
    (h : ∀ rs, decodeModes w (r :: rs) k = .error e) : decodeModes w roles 0 = .error e := by
  obtain ⟨hk, rfl⟩ := List.getElem?_eq_some_iff.mp hr
  refine decodeModes_error_of_drop (j := k) (by simpa using hacc) ?_
  rw [List.drop_eq_getElem_cons hk, Nat.zero_add]
  exact h _

end Sys2Proof

namespace Sys2Proof.Machine

/-! ### Fetching the opcode word -/

theorem step_of_no_cell {s : State} (hs : s.status = .running) (h : ¬ s.inBounds s.ip.toInt) :
    step s = .next (s.takeFault { kind := .outOfBounds, addr := some s.ip.toInt }) := by
  have hcells : s.fetchCells = [] := by
    unfold State.fetchCells longestInstr State.cellsFrom
    rw [State.cell?_eq_none_iff.mpr h]
  exact step_of_reject (r := .noWord) hs (by rw [hcells]; rfl)

/-! ### Resolving an operand -/

/-- `o` names the cell address `addr`: position and relative mode (R61 to R63). -/
def State.Names (s : State) (o : Operand) (addr : Int) : Prop :=
  o.mode = .position ∧ addr = o.raw.toInt ∨ o.mode = .relative ∧ addr = s.rb.toInt + o.raw.toInt

theorem State.Names.readOperand {s : State} {o : Operand} {addr : Int} (h : s.Names o addr) (k : Nat) :
    s.readOperand k o = (s.checkAddr k o.raw addr).map s.mem.read := by
  unfold State.readOperand
  obtain ⟨hm, rfl⟩ | ⟨hm, rfl⟩ := h <;> simp only [hm, State.relAddr]

theorem State.Names.writeOperand {s : State} {o : Operand} {addr : Int} (h : s.Names o addr) (k : Nat) :
    s.writeOperand k o = s.checkAddr k o.raw addr := by
  unfold State.writeOperand
  obtain ⟨hm, rfl⟩ | ⟨hm, rfl⟩ := h <;> simp only [hm, State.relAddr]

theorem State.Names.writable {s : State} {o : Operand} {addr : Int} (h : s.Names o addr) : o.writable = true := by
  rw [Operand.writable_iff]
  obtain ⟨hm, -⟩ | ⟨hm, -⟩ := h <;> rw [hm] <;> exact nofun

theorem State.checkAddr_of_inBounds {s : State} {addr : Int} (h : s.inBounds addr) (k : Nat) (raw : Word) :
    s.checkAddr k raw addr = .ok addr.toNat := if_pos h

theorem State.checkAddr_of_not_inBounds {s : State} {addr : Int} (h : ¬ s.inBounds addr) (k : Nat) (raw : Word) :
    s.checkAddr k raw addr =
      .error { kind := .outOfBounds, operand := some k, raw := some raw, addr := some addr } := if_neg h

/-- Nothing outside the int64 range is an address of memory: `MEM_LEN` is at most 2^63 - 1. -/
theorem State.inBounds.fitsI64 {s : State} {addr : Int} (h : s.inBounds addr) : fitsI64 addr := by
  have := s.memLen.isLt
  obtain ⟨h0, h1⟩ := h
  exact ⟨by omega, by omega⟩

/-! ### The first operand that does not resolve -/

theorem State.operandFault?_read_eq_some_iff {s : State} {k : Nat} {o : Operand} {e : FaultInfo} :
    s.operandFault? k .read o = some e ↔ s.readOperand k o = .error e := by
  unfold State.operandFault?
  cases s.readOperand k o <;> simp

theorem State.operandFault?_read_eq_none_iff {s : State} {k : Nat} {o : Operand} :
    s.operandFault? k .read o = none ↔ ∃ v, s.readOperand k o = .ok v := by
  unfold State.operandFault?
  cases s.readOperand k o <;> simp

theorem State.ReadsAs.operandFault?_eq_none {s : State} {o : Operand} {v : Word} (h : s.ReadsAs o v) (k : Nat) :
    s.operandFault? k .read o = none :=
  State.operandFault?_read_eq_none_iff.mpr ⟨v, State.readOperand_ok_iff.mpr h⟩

theorem State.operandFault?_write_eq_some_iff {s : State} {k : Nat} {o : Operand} {e : FaultInfo} :
    s.operandFault? k .write o = some e ↔ s.writeOperand k o = .error e := by
  unfold State.operandFault?
  cases s.writeOperand k o <;> simp

/-- The fault of the first operand, counted from `k`, that does not resolve in its role (R60). -/
def State.firstFault? (s : State) (k : Nat) : List (Role × Operand) → Option FaultInfo
  | [] => none
  | (role, o) :: rest => (s.operandFault? k role o).or (s.firstFault? (k + 1) rest)

theorem State.firstFault?_cons_eq_some_iff {s : State} {k : Nat} {role : Role} {o : Operand}
    {rest : List (Role × Operand)} {e : FaultInfo} :
    s.firstFault? k ((role, o) :: rest) = some e ↔
      s.operandFault? k role o = some e ∨ s.operandFault? k role o = none ∧ s.firstFault? (k + 1) rest = some e :=
  Option.or_eq_some_iff

/-- A truncated instruction faults for its first operand that does not resolve, else for the missing cell. -/
theorem State.truncatedFault_eq (s : State) (k : Nat) (ops : List (Role × Operand)) :
    s.truncatedFault k ops = (s.firstFault? k ops).getD
      { kind := .outOfBounds, operand := some (k + ops.length),
        addr := some (s.ip.toInt + 1 + (k + ops.length : Nat)) } := by
  induction ops generalizing k with
  | nil => rfl
  | cons p rest ih =>
    obtain ⟨role, o⟩ := p
    unfold State.truncatedFault State.firstFault?
    cases s.operandFault? k role o with
    | some e => rfl
    | none =>
      simp only [ih, Option.none_or, List.length_cons, Nat.add_right_comm k 1, Nat.add_assoc k rest.length 1]

/-- Where every operand before operand `j` resolves, the first fault is that of the operands from `j` on. -/
theorem State.firstFault?_drop {s : State} {k j : Nat} {ops : List (Role × Operand)}
    (h : ∀ i role o, i < j → ops[i]? = some (role, o) → s.operandFault? (k + i) role o = none) :
    s.firstFault? k ops = s.firstFault? (k + j) (ops.drop j) := by
  induction j generalizing k ops with
  | zero => rfl
  | succ j ih =>
    cases ops with
    | nil => rfl
    | cons p rest =>
      obtain ⟨role, o⟩ := p
      have h0 : s.operandFault? k role o = none := h 0 role o (Nat.succ_pos j) rfl
      have hrest : s.firstFault? (k + 1) rest = s.firstFault? (k + 1 + j) (rest.drop j) := by
        refine ih fun i role' o' hi ho' => ?_
        rw [Nat.add_right_comm k 1 i]
        exact h (i + 1) role' o' (Nat.succ_lt_succ hi) ho'
      rw [State.firstFault?, h0, Option.none_or, hrest, Nat.add_right_comm k 1 j, List.drop_succ_cons]
      rfl

/-! ### An instruction with an operand that does not resolve -/

section
variable {s : State} {a b d : Operand} {e : FaultInfo}

theorem State.withRRW_of_firstFault (hd : d.writable = true)
    (h : s.firstFault? 0 [(.read, a), (.read, b), (.write, d)] = some e)
    (body : Word → Word → Nat → Except FaultInfo State) : s.withRRW a b d body = .next (s.takeFault e) := by
  unfold State.withRRW
  rw [checkWriteMode_ok hd]
  rcases State.firstFault?_cons_eq_some_iff.mp h with ha | ⟨ha, h⟩
  · rw [State.operandFault?_read_eq_some_iff.mp ha]
    rfl
  obtain ⟨v0, ha⟩ := State.operandFault?_read_eq_none_iff.mp ha
  rcases State.firstFault?_cons_eq_some_iff.mp h with hb | ⟨hb, h⟩
  · rw [ha, State.operandFault?_read_eq_some_iff.mp hb]
    rfl
  obtain ⟨v1, hb⟩ := State.operandFault?_read_eq_none_iff.mp hb
  rcases State.firstFault?_cons_eq_some_iff.mp h with hw | ⟨-, h⟩
  · rw [ha, hb, State.operandFault?_write_eq_some_iff.mp hw]
    rfl
  · cases h

theorem State.withRR_of_firstFault (h : s.firstFault? 0 [(.read, a), (.read, b)] = some e)
    (body : Word → Word → Except FaultInfo State) : s.withRR a b body = .next (s.takeFault e) := by
  unfold State.withRR
  rcases State.firstFault?_cons_eq_some_iff.mp h with ha | ⟨ha, h⟩
  · rw [State.operandFault?_read_eq_some_iff.mp ha]
    rfl
  obtain ⟨v0, ha⟩ := State.operandFault?_read_eq_none_iff.mp ha
  rcases State.firstFault?_cons_eq_some_iff.mp h with hb | ⟨-, h⟩
  · rw [ha, State.operandFault?_read_eq_some_iff.mp hb]
    rfl
  · cases h

theorem State.withW_of_firstFault (hd : d.writable = true) (h : s.firstFault? 0 [(.write, d)] = some e)
    (body : Nat → Except FaultInfo State) : s.withW d body = .next (s.takeFault e) := by
  unfold State.withW
  rw [checkWriteMode_ok hd]
  rcases State.firstFault?_cons_eq_some_iff.mp h with hw | ⟨-, h⟩
  · rw [State.operandFault?_write_eq_some_iff.mp hw]
    rfl
  · cases h

theorem State.withR_of_firstFault (h : s.firstFault? 0 [(.read, a)] = some e)
    (body : Word → Except FaultInfo State) : s.withR a body = .next (s.takeFault e) := by
  unfold State.withR
  rcases State.firstFault?_cons_eq_some_iff.mp h with ha | ⟨-, h⟩
  · rw [State.operandFault?_read_eq_some_iff.mp ha]
    rfl
  · cases h

end

/-- An instruction with legal modes takes the fault of its first operand that does not resolve (R60, R66). -/
theorem exec_of_firstFault {s : State} {i : Instr} {e : FaultInfo} (hwf : i.wf = true)
    (h : s.firstFault? 0 (i.code.roles.zip i.operands) = some e) : exec i s = .next (s.takeFault e) := by
  cases i with
  | add | mul | lt | eq => exact State.withRRW_of_firstFault hwf h _
  | jt | jf => exact State.withRR_of_firstFault h _
  | inp => exact State.withW_of_firstFault hwf h _
  | out | arb => exact State.withR_of_firstFault h _
  | hlt => cases h

/-! ### Fetching the operands -/

/-- From an opcode word that is there, the cells fetched are the cells of memory. -/
theorem State.fetchCells_getElem? {s : State} {w : Word} (hw : s.cell? s.ip.toInt = some w) {k : Nat} (hk : k < 4) :
    s.fetchCells[k]? = s.cell? (s.ip.toInt + k) := by
  obtain ⟨h0, -, -⟩ := State.cell?_eq_some_iff.mp hw
  refine Option.ext fun v => ?_
  rw [State.fetchCells, State.cellsFrom_getElem? (n := longestInstr) hk, State.cell?_eq_some_iff]
  exact and_congr_left fun _ => iff_of_true h0 (by omega)

/-- The cells fetched after the opcode word are the operand cells. -/
theorem State.operandCells_getElem? {s : State} {w : Word} {rest : List Word} (hw : s.cell? s.ip.toInt = some w)
    (hcells : s.fetchCells = w :: rest) {j : Nat} (hj : j < 3) : rest[j]? = s.cell? (s.ip.toInt + 1 + j) := by
  rw [← List.getElem?_cons_succ (a := w), ← hcells, State.fetchCells_getElem? hw (Nat.succ_lt_succ hj)]
  congr 1
  push_cast
  ring

/-- The operands of a legal opcode word whose cells were fetched, with their roles. -/
def presentOperands (c : Code) (ms : List Mode) (rest : List Word) : List (Role × Operand) :=
  c.roles.zip (List.zipWith Operand.mk ms rest)

theorem presentOperands_getElem?_eq_some_iff {c : Code} {ms : List Mode} {rest : List Word} {j : Nat} {role : Role}
    {m : Mode} {p : Word} :
    (presentOperands c ms rest)[j]? = some (role, ⟨m, p⟩) ↔
      c.roles[j]? = some role ∧ ms[j]? = some m ∧ rest[j]? = some p := by
  simp [presentOperands, List.getElem?_zip_eq_some, List.getElem?_zipWith_eq_some]

/-- Where the operands before operand `k` are present and resolve, the first fault is that of those from `k` on. -/
theorem State.firstFault?_presentOperands {s : State} {c : Code} {ms : List Mode} {rest : List Word} {k : Nat}
    (h : ∀ j, j < k → ∃ p m role, rest[j]? = some p ∧ ms[j]? = some m ∧ c.roles[j]? = some role ∧
      s.operandFault? j role ⟨m, p⟩ = none) :
    s.firstFault? 0 (presentOperands c ms rest) = s.firstFault? k ((presentOperands c ms rest).drop k) := by
  rw [State.firstFault?_drop (j := k) fun j role o hj ho => ?_, Nat.zero_add]
  obtain ⟨p, m, role', hp, hm, hrole, hok⟩ := h j hj
  have hpresent := presentOperands_getElem?_eq_some_iff.mpr ⟨hrole, hm, hp⟩
  obtain ⟨rfl, rfl⟩ := Prod.mk.inj (Option.some.inj (hpresent.symm.trans ho))
  rwa [Nat.zero_add]

/-- A legal opcode word makes an instruction of the operands present, or is rejected for the missing cell. -/
theorem decode_of_decodeOpcode_ok {strict : Bool} {w : Word} {c : Code} {ms : List Mode}
    (h : decodeOpcode strict w = .ok (c, ms)) (rest : List Word) :
    (∃ i, decode strict (w :: rest) = .ok i ∧ i.wf = true ∧ i.code = c ∧
        i.code.roles.zip i.operands = presentOperands c ms rest) ∨
      decode strict (w :: rest) = .error (.truncated (presentOperands c ms rest)) := by
  rcases hb : c.build (List.zipWith Operand.mk ms rest) with _ | i
  · right
    simp [decode, h, hb, presentOperands]
  · left
    have hdec : decode strict (w :: rest) = .ok i := by simp [decode, h, hb]
    obtain ⟨hcode, hops⟩ := Code.build_eq_some_iff.mp hb
    refine ⟨i, hdec, ?_, hcode, by rw [hcode, hops]; rfl⟩
    obtain ⟨w', tail, hcells, hw⟩ := decode_ok_iff_cells.mp hdec
    obtain ⟨-, hms, -⟩ := decodeOpcode_ok_iff_number.mp hw
    exact Instr.wf_iff_legalModes.mpr hms

/-- A running step at a legal opcode word takes the fault of the first operand present that does not resolve. -/
theorem step_of_firstFault {s : State} {w : Word} {rest : List Word} {c : Code} {ms : List Mode} {e : FaultInfo}
    (hs : s.status = .running) (hcells : s.fetchCells = w :: rest)
    (hw : decodeOpcode s.config.strictModeDigits w = .ok (c, ms))
    (h : s.firstFault? 0 (presentOperands c ms rest) = some e) : step s = .next (s.takeFault e) := by
  rcases decode_of_decodeOpcode_ok hw rest with ⟨i, hdec, hwf, -, hops⟩ | hdec <;> rw [← hcells] at hdec
  · exact (step_of_fetch_ok ⟨hs, hdec⟩).trans (exec_of_firstFault hwf (hops ▸ h))
  · rw [step_of_reject hs hdec, State.rejectFault, State.truncatedFault_eq, h]
    rfl

/-- Where the operands present resolve and the next operand's cell is missing, the fault is that cell's. -/
theorem step_of_missing_operand {s : State} {w : Word} {rest : List Word} {c : Code} {ms : List Mode}
    (hs : s.status = .running) (hcells : s.fetchCells = w :: rest)
    (hw : decodeOpcode s.config.strictModeDigits w = .ok (c, ms))
    (h : s.firstFault? 0 (presentOperands c ms rest) = none) {k : Nat}
    (hk : (presentOperands c ms rest).length = k) (hlt : k < c.nops) :
    step s = .next (s.takeFault
      { kind := .outOfBounds, operand := some k, addr := some (s.ip.toInt + 1 + k) }) := by
  rcases decode_of_decodeOpcode_ok hw rest with ⟨i, -, -, rfl, hops⟩ | hdec
  · rw [← hops, List.length_zip, Instr.operands_length, Code.nops, Nat.min_self] at hk
    exact absurd hk (Nat.ne_of_gt hlt)
  · rw [← hcells] at hdec
    rw [step_of_reject hs hdec, State.rejectFault, State.truncatedFault_eq, h, hk, Nat.zero_add]
    rfl

/-! ### The results of a step and the ways of `ip` -/

theorem conditionTrue_iff {v : Word} : conditionTrue v = true ↔ v.toInt ≠ 0 := decide_eq_true_iff

/-- A read operand has one value. -/
theorem State.ReadsAs.unique {s : State} {o : Operand} {v v' : Word} (h : s.ReadsAs o v) (h' : s.ReadsAs o v') :
    v = v' :=
  Except.ok.inj ((State.readOperand_ok_iff (k := 0)).mpr h |>.symm.trans (State.readOperand_ok_iff.mpr h'))

/-- A write operand has one destination. -/
theorem State.WritesTo.unique {s : State} {o : Operand} {d d' : Nat} (h : s.WritesTo o d) (h' : s.WritesTo o d') :
    d = d' :=
  Except.ok.inj ((State.writeOperand_ok_iff (k := 0)).mpr h |>.symm.trans (State.writeOperand_ok_iff.mpr h'))

theorem State.report_eq_of_status {s : State} {st : Status} (hs : s.status = st) (r : StepResult) :
    s.report r = { s with status := st, lastResult := some r } := hs ▸ rfl

/-! ### Frames -/

/-- Only a fault and the halt write the status (R66, R80). -/
theorem Effect.status_eq_or {i : Instr} {s t : State} (h : Effect i s t) :
    t.status = s.status ∨ (∃ info, t = s.takeFault info) ∨ i = .hlt ∧ t.status = .halted := by
  cases h with
  | faults => exact .inr (.inl ⟨_, rfl⟩)
  | halts => exact .inr (.inr ⟨rfl, rfl⟩)
  | jumpsTrue | jumpsFalse => left; split <;> rfl
  | _ => exact .inl rfl

/-- Every cell but the destination reads as before (R66). -/
theorem Effect.read_eq_of_ne {i : Instr} {s t : State} (h : Effect i s t) {d : Operand} {e x : Nat}
    (hi : i.dest? = some d) (he : s.WritesTo d e) (hx : x ≠ e) : t.mem.read x = s.mem.read x := by
  by_contra hne
  obtain ⟨d', hi', hw⟩ := h.dest_of_cell_ne hne
  obtain rfl := Option.some.inj (hi.symm.trans hi')
  exact hx (hw.unique he)

/-- An instruction without a write operand leaves memory as it is. -/
theorem Effect.mem_eq_of_no_dest {i : Instr} {s t : State} (h : Effect i s t) (hi : i.dest? = none) :
    t.mem = s.mem := by
  obtain hm | ⟨d, e, v, hd, -, -⟩ := h.mem_eq_or_write
  · exact hm
  · cases hi.symm.trans hd

/-- An instruction with a write operand writes neither `rb` nor, unless it faults, the status. -/
theorem Effect.rb_status_of_dest {i : Instr} {s t : State} (h : Effect i s t) {d : Operand}
    (hi : i.dest? = some d) : t.rb = s.rb ∧ (t.status = s.status ∨ ∃ info, t = s.takeFault info) := by
  constructor
  · obtain hrb | ⟨a, rfl⟩ := h.rb_eq_or_arb
    · exact hrb
    · cases hi
  · obtain hst | hf | ⟨rfl, -⟩ := h.status_eq_or
    · exact .inl hst
    · exact .inr hf
    · cases hi

/-- Input is consumed by an `in` that continues; any other `in` keeps the slot and memory (R71). -/
theorem Effect.inp_consumes_or {d : Operand} {s t : State} (h : Effect (.inp d) s t) :
    t.pending = none ∧ t.lastResult = some .continued ∨ t.pending = s.pending ∧ t.mem = s.mem := by
  cases h with
  | consumes => exact .inl ⟨rfl, rfl⟩
  | faults | waits => exact .inr ⟨rfl, rfl⟩

/-! ### Ends of a run -/

/-- `advance` from a halted machine returns Halted and keeps it halted (R56, R87). -/
theorem Advances.of_halted {s t : State} {e : Event} (h : Advances s e t) (hs : s.status = .halted) :
    e = .halted ∧ t.status = .halted := by
  cases h with
  | event hst hev =>
    cases (step_of_halted hs).symm.trans hst
    cases hev
    exact ⟨rfl, hs⟩
  | onward hst hev =>
    cases (step_of_halted hs).symm.trans hst
    cases hev

/-- A run from a halted machine keeps it halted, and its latest event is no fault (R92). -/
theorem Run.of_halted {s t : State} {outs : List Word} {e : Option Event} (h : Run s outs e t)
    (hs : s.status = .halted) : t.status = .halted ∧ ∀ f, e ≠ some (.fault f) := by
  induction h with
  | start => exact ⟨hs, nofun⟩
  | provideInput v _ ih => exact ih
  | output _ hadv ih | needsInput _ hadv ih | halted _ hadv ih => exact ⟨(hadv.of_halted ih.1).2, nofun⟩
  | fault _ hadv ih => cases (hadv.of_halted ih.1).1

/-- The events after which a machine stays stopped: Halted and a fault. -/
def Event.Ends (e : Event) : Prop := e = .halted ∨ ∃ f, e = .fault f

theorem State.takeFault_ends (s : State) (info : FaultInfo) :
    ∃ e, (s.takeFault info).event? = some e ∧ e.Ends := ⟨_, rfl, .inr ⟨_, rfl⟩⟩

/-- A running machine that executes nothing but add, mul and hlt ends with its step, or moves `ip` up by 4 inside
memory (R65, R69, R70). -/
theorem step_ends_or_moves {s t : State} (hs : s.status = .running) (hst : step s = .next t)
    (honly : ∀ i, s.Executes i → i.code = .add ∨ i.code = .mul ∨ i.code = .hlt) :
    (∃ e, t.event? = some e ∧ e.Ends) ∨
      t.event? = none ∧ t.status = .running ∧ 0 ≤ s.ip.toInt ∧ t.ip.toInt = s.ip.toInt + 4 ∧
        s.ip.toInt + 3 < s.memLen.val := by
  rcases step_next hst with ⟨hh, -⟩ | ⟨f, hf, -⟩ | ⟨-, info, -, rfl⟩ | ⟨i, hi, -, he⟩
  · cases hs.symm.trans hh
  · cases hs.symm.trans hf
  · exact .inl (s.takeFault_ends info)
  · have hcode := honly i hi
    obtain ⟨h0, hlt⟩ := hi.next_inBounds
    cases he with
    | faults => exact .inl (s.takeFault_ends _)
    | halts => exact .inl ⟨_, rfl, .inl rfl⟩
    | adds | multiplies => exact .inr ⟨rfl, hs, h0, hi.toInt_next.trans (Int.add_assoc _ 1 3), hlt⟩
    | _ => simp [Instr.code] at hcode

/-- With fuel for every cell from `ip` on, and for one step at least, `advance` returns an end. -/
theorem advanceWithin_ends {fuel : Nat} {s : State} (hs : s.status = .running) (hfuel : 1 ≤ fuel)
    (hroom : 0 ≤ s.ip.toInt → s.memLen.val ≤ fuel + s.ip.toInt)
    (honly : ∀ k t i, Steps k s t → t.Executes i → i.code = .add ∨ i.code = .mul ∨ i.code = .hlt) :
    ∃ e t, advanceWithin fuel s = some (e, t) ∧ e.Ends := by
  induction fuel generalizing s with
  | zero => omega
  | succ fuel ih =>
    obtain ⟨t, hst, -⟩ := step_effect s
    unfold advanceWithin
    rw [hst]
    rcases step_ends_or_moves hs hst (fun i => honly 0 s i .refl) with ⟨e, he, hend⟩ | ⟨he, ht, h0, hip, hmem⟩
    · exact ⟨e, t, by simp [he], hend⟩
    · simp only [he]
      have hroom := hroom h0
      obtain ⟨hlen, -⟩ := step_memLen_config_eq hst
      refine ih ht (by omega) (fun _ => ?_) fun k u i hk => honly (k + 1) u i (.step hst hk)
      rw [hlen, hip]
      omega

/-! ### The obligations -/

/-- Settles O8: the cells fetched begin with the one at `ip`, if there is one. -/
theorem fetchOutsideMemoryFaults : Obligations.FetchOutsideMemoryFaults := by
  intro s hs
  refine ⟨step_of_no_cell hs, fun h => ?_⟩
  obtain ⟨rest, hcells⟩ := State.fetchCells_of_cell? (if_pos h)
  rw [hcells]
  rfl

/-- Settles O10: the words that R58 rejects, and no other word is rejected as they are. -/
theorem illegalOpcodeExactly : Obligations.IllegalOpcodeExactly := by
  intro s w hs hw
  refine ⟨fun h => step_of_decodeOpcode_error hs hw (decodeOpcode_of_no_code _ h), fun c h0 hc =>
    ⟨decodeOpcode_ne_illegalOpcode _ h0 hc, fun c' ms h => ?_⟩⟩
  obtain ⟨-, hc', -, -⟩ := decodeOpcode_ok_iff.mp h
  obtain rfl := Code.number_injective (hc'.symm.trans ((toNat_mod_hundred_eq_iff h0).mpr hc))
  exact ⟨rfl, decodeOpcode_length h⟩

/-- Settles O11: the digits before the first one rejected let the loop of R59 pass. -/
theorem modeDigitsValidatedInOrder : Obligations.ModeDigitsValidatedInOrder := by
  intro s w c hs hw h0 hc
  refine ⟨fun hx => ?_, fun hx k role hrole hacc => ?_⟩
  · exact step_of_decodeOpcode_error (r := .illegalParameterMode none) hs hw
      ((decodeOpcode_of_code _ h0 hc).trans (if_pos hx))
  · have hstep {e : Reject} (h : ∀ rs, decodeModes w.toNat (role :: rs) k = .error e) :
        step s = .next (s.takeFault (s.rejectFault e)) := by
      refine step_of_decodeOpcode_error hs hw ?_
      rw [decodeOpcode_of_code _ h0 hc, if_neg hx, decodeModes_error_at hrole hacc h]
      rfl
    refine ⟨fun hd => hstep (decodeModes_cons_of_no_mode hd role), ?_⟩
    rintro rfl hd
    exact hstep (decodeModes_cons_of_immediate_write hd)

/-- Settles O12: the operands before operand `k` resolve, so the fault is that of its cell or of its resolution. -/
theorem operandsFetchedAndResolvedInOrder : Obligations.OperandsFetchedAndResolvedInOrder := by
  intro s w c ms k hs hw hdec hk hbefore
  obtain ⟨rest, hcells⟩ := State.fetchCells_of_cell? hw
  have hk3 : k < 3 := Nat.lt_of_lt_of_le hk (Nat.le_of_lt_succ c.nops_lt)
  have hpresent (j : Nat) (hj : j < k) : ∃ p m role, rest[j]? = some p ∧ ms[j]? = some m ∧
      c.roles[j]? = some role ∧ s.operandFault? j role ⟨m, p⟩ = none := by
    rw [State.operandCells_getElem? hw hcells (hj.trans hk3)]
    exact hbefore j hj
  have hfirst := State.firstFault?_presentOperands hpresent
  rw [← State.operandCells_getElem? hw hcells hk3]
  refine ⟨fun hmissing => ?_, fun p m role e hp hm hrole he => ?_⟩
  · have hlen : rest.length = k := by
      refine le_antisymm (List.getElem?_eq_none_iff.mp hmissing) (Nat.le_of_not_lt fun hlt => ?_)
      obtain ⟨p, m, role, hp, -⟩ := hpresent rest.length hlt
      simp at hp
    have hops : (presentOperands c ms rest).length = k := by
      have hms := decodeOpcode_length hdec
      have hroles : c.roles.length = c.nops := rfl
      rw [presentOperands, List.length_zip, List.length_zipWith]
      omega
    refine step_of_missing_operand hs hcells hdec ?_ hops hk
    rw [hfirst, List.drop_eq_nil_of_le (Nat.le_of_eq hops)]
    rfl
  · obtain ⟨hlt, hget⟩ :=
      List.getElem?_eq_some_iff.mp (presentOperands_getElem?_eq_some_iff.mpr ⟨hrole, hm, hp⟩)
    refine step_of_firstFault hs hcells hdec ?_
    rw [hfirst, List.drop_eq_getElem_cons hlt, hget]
    exact State.firstFault?_cons_eq_some_iff.mpr (.inl he)

/-- Settles O13, by the bounds check on the address that the operand names. -/
theorem readOperandResolution : Obligations.ReadOperandResolution := by
  intro s k p
  refine ⟨rfl, fun m addr h => ?_⟩
  have hread : s.readOperand k ⟨m, p⟩ = _ := State.Names.readOperand (o := ⟨m, p⟩) h k
  exact ⟨fun hb => by rw [hread, State.checkAddr_of_inBounds hb]; rfl,
    fun hb => by rw [hread, State.checkAddr_of_not_inBounds hb]; rfl⟩

/-- Settles O14: the bounds check fails, and a write operand is the last to be resolved. -/
theorem writeOperandResolution : Obligations.WriteOperandResolution := by
  intro s k p m addr h
  have hn : s.Names ⟨m, p⟩ addr := h
  refine ⟨fun hb => hn.writeOperand k ▸ State.checkAddr_of_inBounds hb k p, fun hb => ?_⟩
  have hfault (j : Nat) : s.writeOperand j ⟨m, p⟩ =
      .error { kind := .outOfBounds, operand := some j, raw := some p, addr := some addr } :=
    hn.writeOperand j ▸ State.checkAddr_of_not_inBounds hb j p
  refine ⟨hfault k, exec_of_firstFault hn.writable ?_, fun a b v0 v1 i ha hb' hi => ?_⟩
  · exact State.firstFault?_cons_eq_some_iff.mpr (.inl (State.operandFault?_write_eq_some_iff.mpr (hfault 0)))
  · have hfirst : s.firstFault? 0 [(.read, a), (.read, b), (.write, ⟨m, p⟩)] =
        some { kind := .outOfBounds, operand := some 2, raw := some p, addr := some addr } := by
      simp [State.firstFault?_cons_eq_some_iff, ha.operandFault?_eq_none, hb'.operandFault?_eq_none,
        State.operandFault?_write_eq_some_iff, hfault]
    obtain rfl | rfl | rfl | rfl := hi <;> exact exec_of_firstFault hn.writable hfirst

/-- Settles O15: a relative operand names the exact sum, and what is in bounds is in the int64 range. -/
theorem relativeAddressIsTheExactSum : Obligations.RelativeAddressIsTheExactSum := by
  intro s k p
  have hn : s.Names ⟨.relative, p⟩ (s.rb.toInt + p.toInt) := .inr ⟨rfl, rfl⟩
  rw [hn.readOperand, hn.writeOperand]
  refine ⟨fun hb => ?_, fun hb info hinfo => ?_, mt State.inBounds.fitsI64⟩
  · rw [State.checkAddr_of_inBounds hb]
    exact ⟨rfl, rfl⟩
  · rw [State.checkAddr_of_not_inBounds hb, hinfo]
    exact ⟨rfl, rfl⟩

/-- Settles O17: the cells decode, so the step executes. -/
theorem stepRunsTheDecodedInstruction : Obligations.StepRunsTheDecodedInstruction := fun _ _ hs hdec =>
  step_of_fetch_ok ⟨hs, hdec⟩

/-- Settles O18, along the ways of a step and the effects of an instruction. -/
theorem stepResultTable : Obligations.StepResultTable := by
  intro s
  obtain ⟨t, hst, ⟨hs, rfl⟩ | ⟨f, hs, rfl⟩ | ⟨-, info, -, rfl⟩ | ⟨i, hi, -, he⟩⟩ := step_effect s
  · exact ⟨_, .halted, hst, rfl, State.report_eq_of_status hs _⟩
  · exact ⟨_, .fault f, hst, rfl, State.report_eq_of_status hs _⟩
  · exact ⟨_, .fault _, hst, rfl, rfl⟩
  · have hs := hi.1
    cases he with
    | faults => exact ⟨_, .fault _, hst, rfl, rfl⟩
    | adds | multiplies | consumes | lessThan | equals | rebases => exact ⟨_, .continued, hst, rfl, hs, hs⟩
    | jumpsTrue | jumpsFalse => exact ⟨_, .continued, hst, by split <;> rfl, hs, by split <;> exact hs⟩
    | waits hd hp => exact ⟨_, .needsInput, hst, rfl, hp, ⟨_, hi⟩, rfl⟩
    | outputs ha => exact ⟨_, .output _, hst, rfl, hs, _, hi, ha, hi.toInt_next.trans (Int.add_assoc _ 1 1), hs⟩
    | halts => exact ⟨_, .halted, hst, rfl, rfl⟩

/-- Settles O19, by the two ways of a step that executes nothing. -/
theorem statusGate : Obligations.StatusGate := ⟨fun _ hs => step_of_halted hs, fun _ _ hs => step_of_faulted hs⟩

/-- Settles O20, along the effects of an instruction. -/
theorem ipUpdate : Obligations.IpUpdate := by
  intro s t i hi hst
  have he := exec_next ((step_of_fetch_ok hi).symm.trans hst)
  have hs := hi.1
  cases he with
  | faults => exact .inr (.inr ⟨rfl, .inr (.inr ⟨_, rfl⟩)⟩)
  | adds | multiplies | outputs | lessThan | equals | rebases =>
    exact .inl ⟨hi.toInt_next, hs, nofun, nofun, nofun, nofun⟩
  | waits hd hp => exact .inr (.inr ⟨rfl, .inr (.inl ⟨_, rfl, hp⟩)⟩)
  | consumes hd hp => exact .inl ⟨hi.toInt_next, hs, nofun, fun _ _ => by simp [hp], nofun, nofun⟩
  | jumpsTrue hc ht =>
    split
    · rename_i hv
      exact .inr (.inl ⟨_, _, _, _, hc, ht, rfl, hs, .inl ⟨rfl, conditionTrue_iff.mp hv⟩⟩)
    · rename_i hv
      refine .inl ⟨hi.toInt_next, hs, nofun, nofun, ?_, nofun⟩
      rintro _ _ v ⟨⟩ hv'
      obtain rfl := hc.unique hv'
      simpa [conditionTrue_iff] using hv
  | jumpsFalse hc ht =>
    split
    · rename_i hv
      refine .inl ⟨hi.toInt_next, hs, nofun, nofun, nofun, ?_⟩
      rintro _ _ v ⟨⟩ hv'
      obtain rfl := hc.unique hv'
      exact conditionTrue_iff.mp hv
    · rename_i hv
      exact .inr (.inl ⟨_, _, _, _, hc, ht, rfl, hs, .inr ⟨rfl, by simpa [conditionTrue_iff] using hv⟩⟩)
  | halts => exact .inr (.inr ⟨rfl, .inl ⟨rfl, rfl⟩⟩)

/-- Settles O42: the effect writes the destination alone. -/
theorem frameOfStoringInstructions : Obligations.FrameOfStoringInstructions := by
  intro s t a b d i hi hexec
  have he := exec_next hexec
  have hdest : i.dest? = some d := Instr.dest?_eq_some_iff.mpr (.inr ⟨a, b, hi⟩)
  obtain ⟨hlen, hconfig⟩ := he.memLen_config_eq
  obtain ⟨hrb, hstatus⟩ := he.rb_status_of_dest hdest
  have hpending : t.pending = s.pending := by
    obtain hp | ⟨-, d', rfl⟩ := he.pending_eq_or_inp
    · exact hp
    · simp at hi
  refine ⟨hlen, hrb, hpending, hconfig, hstatus, fun e hw x hx => ?_, ?_⟩
  · exact he.read_eq_of_ne hdest (State.writeOperand_ok_iff.mp hw) hx
  · rintro info rfl x
    rfl

/-- Settles O43: the effect writes the destination alone, and only when it consumes input. -/
theorem frameOfInput : Obligations.FrameOfInput := by
  intro s t d hexec
  have he := exec_next hexec
  obtain ⟨hlen, hconfig⟩ := he.memLen_config_eq
  obtain ⟨hrb, hstatus⟩ := he.rb_status_of_dest rfl
  refine ⟨hlen, hrb, hconfig, hstatus, ?_, fun e hw x hx => ?_, fun hr x => ?_⟩
  · exact he.inp_consumes_or.symm.imp_left And.left
  · exact he.read_eq_of_ne rfl (State.writeOperand_ok_iff.mp hw) hx
  · obtain ⟨-, hc⟩ | ⟨-, hm⟩ := he.inp_consumes_or
    · exact absurd hc hr
    · rw [hm]

/-- Settles O44: without a destination there is no write to memory. -/
theorem frameOfNonStoringInstructions : Obligations.FrameOfNonStoringInstructions := by
  intro s t a b i hi hexec
  have he := exec_next hexec
  have hdest : i.dest? = none := by obtain rfl | rfl | rfl | rfl | rfl := hi <;> rfl
  obtain ⟨hlen, hconfig⟩ := he.memLen_config_eq
  have hpending : t.pending = s.pending := by
    obtain hp | ⟨-, d, rfl⟩ := he.pending_eq_or_inp
    · exact hp
    · cases hdest
  have hrb (harb : i ≠ .arb a) : t.rb = s.rb := by
    obtain hrb | ⟨a', rfl⟩ := he.rb_eq_or_arb
    · exact hrb
    · have ha : a' = a := by simpa using hi
      exact absurd (congrArg Instr.arb ha) harb
  exact ⟨hlen, hpending, hconfig, fun x => by rw [he.mem_eq_of_no_dest hdest], hrb, he.status_eq_or⟩

/-- Settles O59: the latest event of a run from a halted machine is no fault. -/
theorem haltedMachineIsSafe : Obligations.HaltedMachineIsSafe := by
  intro s hs outs f h
  cases h with
  | faulted hrun => exact (hrun.of_halted hs).2 f rfl

/-- Settles O60: the fuel covers every cell from `ip` on. -/
theorem addMulHaltMachinesTerminate : Obligations.AddMulHaltMachinesTerminate := fun _ hs honly =>
  advanceWithin_ends hs (Nat.le_max_left _ _) (fun _ => by omega) honly

end Sys2Proof.Machine
end

section
/-! The obligations of spec 41_arithmetic.md: the next state of add and mul on operands that resolve, and the
overflow fault of add, mul and arb. -/

namespace Sys2Proof.Machine

/-! ### The range check at the end of a meaning -/

/-- The two ways for the range check to pass: the number fits, or the policy is wrap (R9). -/
theorem toI64_of_fits_or_wrap {p : OverflowPolicy} {v : Int} (h : fitsI64 v ∨ p = .wrap) :
    toI64 p v = .ok (BitVec.ofInt 64 v) := by
  obtain h | rfl := h
  · exact toI64_of_fits p h
  · exact toI64_wrap v

section
variable {s : State} {v : Int}

/-- A meaning that goes on with a checked result, when the check passes. -/
theorem State.finish_toI64_ok (h : fitsI64 v ∨ s.config.overflowPolicy = .wrap)
    (f : Word → Except FaultInfo State) :
    s.finish (toI64 s.config.overflowPolicy v >>= f) = s.finish (f (BitVec.ofInt 64 v)) := by
  rw [toI64_of_fits_or_wrap h]
  rfl

/-- A meaning that goes on with a checked result, when the check fails: nothing of `f` is done (R66). -/
theorem State.finish_toI64_overflow (hp : s.config.overflowPolicy = .fault) (h : ¬ fitsI64 v)
    (f : Word → Except FaultInfo State) :
    s.finish (toI64 s.config.overflowPolicy v >>= f) = .next (s.takeFault { kind := .arithmeticOverflow }) := by
  rw [hp, toI64_overflow h]
  rfl

end

/-! ### The meanings of add, mul and arb on operands that resolve -/

section
variable {s : State} {a b d : Operand} {v0 v1 : Word} {e : Nat}

theorem exec_add_of_resolves (ha : s.ReadsAs a v0) (hb : s.ReadsAs b v1) (hd : s.WritesTo d e) :
    exec (.add a b d) s = s.finish
      (toI64 s.config.overflowPolicy (v0.toInt + v1.toInt) >>= fun r => .ok ((s.store e r).advance 3)) :=
  State.withRRW_ok ha hb hd _

theorem exec_mul_of_resolves (ha : s.ReadsAs a v0) (hb : s.ReadsAs b v1) (hd : s.WritesTo d e) :
    exec (.mul a b d) s = s.finish
      (toI64 s.config.overflowPolicy (v0.toInt * v1.toInt) >>= fun r => .ok ((s.store e r).advance 3)) :=
  State.withRRW_ok ha hb hd _

theorem exec_arb_of_resolves (ha : s.ReadsAs a v0) :
    exec (.arb a) s = s.finish
      (toI64 s.config.overflowPolicy (s.rb.toInt + v0.toInt) >>= fun r => .ok ({ s with rb := r }.advance 1)) :=
  State.withR_ok ha _

end

/-- `next` as one sum: the opcode word and `n` operand cells (R65). -/
theorem State.advance_eq (s : State) (n : Nat) :
    s.advance n = { s with ip := BitVec.ofInt 64 (s.ip.toInt + (1 + n)), lastResult := some .continued } := by
  rw [← Int.add_assoc]
  rfl

/-! ### The obligations -/

/-- Settles O31: the operands resolve and the range check passes, so the sum is stored. -/
theorem addWritesSum : Obligations.AddWritesSum := by
  intro s a b d v0 v1 e ha hb hd hr
  rw [exec_add_of_resolves ha hb hd, State.finish_toI64_ok hr, State.finish_ok, State.advance_eq]
  rfl

/-- Settles O32: the operands resolve and the range check passes, so the product is stored. -/
theorem mulWritesProduct : Obligations.MulWritesProduct := by
  intro s a b d v0 v1 e ha hb hd hr
  rw [exec_mul_of_resolves ha hb hd, State.finish_toI64_ok hr, State.finish_ok, State.advance_eq]
  rfl

/-- Settles O33: the range check fails before anything is written. -/
theorem overflowFaultsWriteNothing : Obligations.OverflowFaultsWriteNothing := by
  intro s a b d v0 v1 e hp ha hb hd
  exact ⟨fun h => (exec_add_of_resolves ha hb hd).trans (State.finish_toI64_overflow hp h _),
    fun h => (exec_mul_of_resolves ha hb hd).trans (State.finish_toI64_overflow hp h _),
    fun h => (exec_arb_of_resolves ha).trans (State.finish_toI64_overflow hp h _)⟩

end Sys2Proof.Machine
end

section
/-! The obligations of spec 42_io.md: the next state of in and out on an operand that resolves, and the fault of an
in whose destination does not. -/

namespace Sys2Proof.Machine

/-! ### A destination that does not resolve -/

theorem State.exists_writeOperand_error {s : State} {d : Operand} (h : ∀ e, ¬ s.WritesTo d e) (k : Nat) :
    ∃ info, s.writeOperand k d = .error info := by
  rcases hw : s.writeOperand k d with info | e
  · exact ⟨info, rfl⟩
  · exact absurd (State.writeOperand_ok_iff.mp hw) (h e)

theorem State.writeOperand_immediate (s : State) (k : Nat) {d : Operand} (h : d.mode = .immediate) :
    s.writeOperand k d = .error { kind := .illegalWriteMode, operand := some k } := by
  unfold State.writeOperand
  rw [h]

theorem State.writeOperand_error_kind {s : State} {k : Nat} {d : Operand} {info : FaultInfo}
    (h : s.writeOperand k d = .error info) :
    (d.mode = .immediate → info.kind = .illegalWriteMode) ∧ (d.mode ≠ .immediate → info.kind = .outOfBounds) := by
  constructor
  · intro hm
    cases h.symm.trans (s.writeOperand_immediate k hm)
    rfl
  · intro hm
    obtain ⟨himm, -⟩ | ⟨addr, rfl, -⟩ := State.writeOperand_error h
    · exact absurd himm hm
    · rfl

/-- Format W on an operand that does not resolve: the role check raises the very fault that resolving an immediate
destination would raise, and passes every other destination. -/
theorem State.withW_of_writeOperand_error {s : State} {d : Operand} {info : FaultInfo}
    (h : s.writeOperand 0 d = .error info) (body : Nat → Except FaultInfo State) :
    s.withW d body = .next (s.takeFault info) := by
  by_cases hm : d.mode = .immediate
  · cases h.symm.trans (s.writeOperand_immediate 0 hm)
    exact s.withW_immediate hm body
  · exact State.withW_of_firstFault (Operand.writable_iff.mpr hm)
      (State.firstFault?_cons_eq_some_iff.mpr (.inl (State.operandFault?_write_eq_some_iff.mpr h))) body

/-! ### The meanings of in and out on an operand that resolves -/

section
variable {s : State} {a d : Operand} {v : Word} {e : Nat}

theorem exec_inp_of_pending (hd : s.WritesTo d e) (hp : s.pending = some v) :
    exec (.inp d) s = .next ({ s.store e v with pending := none }.advance 1) := by
  refine (State.withW_ok hd _).trans ?_
  rw [hp]
  rfl

theorem exec_inp_of_not_pending (hd : s.WritesTo d e) (hp : s.pending = none) :
    exec (.inp d) s = .next (s.report .needsInput) := by
  refine (State.withW_ok hd _).trans ?_
  rw [hp]
  rfl

theorem exec_out_of_resolves (ha : s.ReadsAs a v) :
    exec (.out a) s = .next ((s.advance 1).report (.output v)) :=
  State.withR_ok ha _

end

/-! ### The obligations -/

/-- Settles O34: the destination resolves and the slot is full, so the input is stored. -/
theorem inStoresPendingInput : Obligations.InStoresPendingInput := by
  intro s d v e hd hp
  rw [exec_inp_of_pending hd hp, State.advance_eq]
  rfl

/-- Settles O35: the destination is resolved before the slot is looked at, and its fault leaves the slot as it is. -/
theorem inWithoutInputWaits : Obligations.InWithoutInputWaits := by
  intro s d
  refine ⟨fun e hd hp => exec_inp_of_not_pending hd hp, fun hd => ?_⟩
  obtain ⟨info, hw⟩ := State.exists_writeOperand_error hd 0
  exact ⟨info, State.withW_of_writeOperand_error hw _, s.takeFault_pending info, State.writeOperand_error_kind hw⟩

/-- Settles O36: the operand resolves, so `ip` advances and the value is the step's result. -/
theorem outEmitsValue : Obligations.OutEmitsValue := by
  intro s a v ha
  rw [exec_out_of_resolves ha, State.advance_eq]
  rfl

end Sys2Proof.Machine
end

section
/-! The obligations of spec 43_jumps.md: the next state of jt and jf on operands that resolve, and the taken jump to
its own address, which never produces an event. -/

namespace Sys2Proof.Machine

/-! ### The meanings of jt and jf on operands that resolve -/

section
variable {s : State} {cond target : Operand} {v0 v1 : Word}

theorem exec_jt_of_resolves (hc : s.ReadsAs cond v0) (ht : s.ReadsAs target v1) :
    exec (.jt cond target) s = .next (if v0.toInt ≠ 0 then s.jump v1 else s.advance 2) := by
  simp only [← conditionTrue_iff]
  exact State.withRR_ok hc ht _

theorem exec_jf_of_resolves (hc : s.ReadsAs cond v0) (ht : s.ReadsAs target v1) :
    exec (.jf cond target) s = .next (if v0.toInt = 0 then s.jump v1 else s.advance 2) := by
  rw [← ite_not]
  simp only [← conditionTrue_iff]
  exact State.withRR_ok hc ht _

end

/-! ### The taken jump to its own address -/

/-- The machine executes a jump that is taken (R74, R75), and the value of its target is `ip`. -/
inductive State.JumpsToItself (s : State) : Prop where
  | jt {cond target : Operand} {v : Word} : s.Executes (.jt cond target) → s.ReadsAs cond v → v.toInt ≠ 0 →
      s.ReadsAs target s.ip → s.JumpsToItself
  | jf {cond target : Operand} {v : Word} : s.Executes (.jf cond target) → s.ReadsAs cond v → v.toInt = 0 →
      s.ReadsAs target s.ip → s.JumpsToItself

/-- The step of a taken jump to its own address changes nothing but the model's `lastResult`. -/
theorem State.JumpsToItself.step {s : State} (h : s.JumpsToItself) : step s = .next (s.report .continued) := by
  cases h with
  | jt hi hc hv ht =>
    rw [step_of_fetch_ok hi, exec_jt_of_resolves hc ht, if_pos hv]
    rfl
  | jf hi hc hv ht =>
    rw [step_of_fetch_ok hi, exec_jf_of_resolves hc ht, if_pos hv]
    rfl

/-- No meaning reads `lastResult` (log entry 1), so the machine jumps to itself again. -/
theorem State.JumpsToItself.report {s : State} (h : s.JumpsToItself) (r : StepResult) :
    (s.report r).JumpsToItself := by
  cases h with
  | jt hi hc hv ht => exact .jt hi hc hv ht
  | jf hi hc hv ht => exact .jf hi hc hv ht

/-- By induction on the fuel: each step leaves a machine that jumps to itself, with no event. -/
theorem State.JumpsToItself.diverges {s : State} (h : s.JumpsToItself) : Diverges s := by
  intro fuel
  induction fuel generalizing s with
  | zero => rfl
  | succ fuel ih =>
    rw [advanceWithin, h.step]
    exact ih (h.report .continued)

/-! ### The obligations -/

/-- Settles O37: the operands resolve, so the condition alone chooses between the target and `next`. -/
theorem jtJumpsOnNonzero : Obligations.JtJumpsOnNonzero := by
  intro s cond target v0 v1 hc ht
  rw [exec_jt_of_resolves hc ht]
  refine ⟨fun hv => ?_, fun hv => ?_⟩
  · rw [if_pos hv]
    rfl
  · rw [if_neg (not_not_intro hv), State.advance_eq]
    rfl

/-- Settles O38: the operands resolve, so the condition alone chooses between the target and `next`. -/
theorem jfJumpsOnZero : Obligations.JfJumpsOnZero := by
  intro s cond target v0 v1 hc ht
  rw [exec_jf_of_resolves hc ht]
  refine ⟨fun hv => ?_, fun hv => ?_⟩
  · rw [if_pos hv]
    rfl
  · rw [if_neg hv, State.advance_eq]
    rfl

/-- Settles O52: the machine jumps to itself, whichever of the two jumps it executes. -/
theorem jumpToItselfDiverges : Obligations.JumpToItselfDiverges := fun _ _ _ _ hc ht =>
  ⟨fun hi hv => (State.JumpsToItself.jt hi hc hv ht).diverges,
    fun hi hv => (State.JumpsToItself.jf hi hc hv ht).diverges⟩

end Sys2Proof.Machine
end

section
/-! The obligation of spec 44_compare.md: the next state of lt and eq on operands that resolve. -/

namespace Sys2Proof.Machine

/-! ### The word a comparison writes -/

/-- R77: the comparison is of the signed values. -/
theorem truthWord_lessThan (x y : Word) : truthWord (lessThan x y) = if x.toInt < y.toInt then 1 else 0 := by
  simp only [truthWord, lessThan, decide_eq_true_eq]

/-- R78: the values are equal exactly when the whole cells are. -/
theorem truthWord_equalTo (x y : Word) : truthWord (equalTo x y) = if x = y then 1 else 0 := by
  simp only [truthWord, equalTo, decide_eq_true_eq, BitVec.toInt_inj]

/-! ### The meanings of lt and eq on operands that resolve -/

section
variable {s : State} {a b d : Operand} {v0 v1 : Word} {e : Nat}

theorem exec_lt_of_resolves (ha : s.ReadsAs a v0) (hb : s.ReadsAs b v1) (hd : s.WritesTo d e) :
    exec (.lt a b d) s = .next ((s.store e (if v0.toInt < v1.toInt then 1 else 0)).advance 3) := by
  rw [← truthWord_lessThan]
  exact State.withRRW_ok ha hb hd _

theorem exec_eq_of_resolves (ha : s.ReadsAs a v0) (hb : s.ReadsAs b v1) (hd : s.WritesTo d e) :
    exec (.eq a b d) s = .next ((s.store e (if v0 = v1 then 1 else 0)).advance 3) := by
  rw [← truthWord_equalTo]
  exact State.withRRW_ok ha hb hd _

end

/-! ### The obligation -/

/-- Settles O39: the operands resolve, so the truth value of the comparison is stored. -/
theorem comparisonsWriteOneOrZero : Obligations.ComparisonsWriteOneOrZero := by
  intro s a b d v0 v1 e ha hb hd
  constructor
  · rw [exec_lt_of_resolves ha hb hd, State.advance_eq]
    rfl
  · rw [exec_eq_of_resolves ha hb hd, State.advance_eq]
    rfl

end Sys2Proof.Machine
end

section
/-! The obligation of spec 45_relative_base.md: the next state of arb on an operand that resolves. -/

namespace Sys2Proof.Machine

/-- Settles O40: the operand resolves at the old `rb` and the range check passes, so `rb` is the sum. -/
theorem arbAddsToRelativeBase : Obligations.ArbAddsToRelativeBase := by
  intro s a v ha hr
  rw [exec_arb_of_resolves ha, State.finish_toI64_ok hr, State.finish_ok, State.advance_eq]
  rfl

end Sys2Proof.Machine
end

section
/-! The obligation of spec 46_halt.md: the next state of hlt. -/

namespace Sys2Proof.Machine

/-- R80: hlt stores `Halted` in the status and reports it, in every state. -/
theorem exec_hlt (s : State) : exec .hlt s = .next ({ s with status := .halted }.report .halted) := rfl

/-- Settles O41: the state hlt answers has status Halted, and the report adds the result alone. -/
theorem hltHalts : Obligations.HltHalts := by
  intro s
  rw [exec_hlt, State.report_eq_of_status (st := .halted) rfl]

end Sys2Proof.Machine
end

section
/-! The obligations of spec 47_host_interface.md: `advance` and the driver as loops with fuel, what a machine does
after an end and at an `in` without input, and the invariant along every run. -/

namespace Sys2Proof.Machine

/-! ### Construct, provide_input and snapshot -/

section
variable {config : Config} {B : List Word} {h : B.length < 2 ^ 63}

@[simp] theorem construct_mem : (construct config B h).mem = Memory.ofCells 0 B := rfl
@[simp] theorem construct_memLen : ((construct config B h).memLen : Nat) = B.length := rfl

/-- The machine over a buffer holds the buffer's cells (R82). -/
theorem construct_read {k : Nat} (hk : k < B.length) :
    (construct config B h).mem.read k = B[k] := by
  simpa using Memory.read_ofCells 0 B k hk

end

theorem snapshot_length (s : State) : (snapshot s).length = s.memLen.val := by simp [snapshot]

theorem snapshot_getElem {s : State} {k : Nat} (hk : k < (snapshot s).length) :
    (snapshot s)[k] = s.mem.read k := by
  simp [snapshot]

/-- The step of a machine that has stopped does not read the slot (R56, R83). -/
theorem step_provideInput_of_not_running {s : State} (hs : s.status ≠ .running) (v : Word) :
    ∃ t, step s = .next t ∧ step (provideInput v s) = .next (provideInput v t) := by
  rcases hst : s.status with _ | _ | f
  · exact absurd hst hs
  · exact ⟨_, step_of_halted hst, step_of_halted (s := provideInput v s) hst⟩
  · exact ⟨_, step_of_faulted hst, step_of_faulted (s := provideInput v s) hst⟩

/-! ### The event of a step -/

/-- The step's result that is the event (R84, R85). -/
def Event.result : Event → StepResult
  | .output v => .output v
  | .needsInput => .needsInput
  | .halted => .halted
  | .fault f => .fault f

/-- A machine stands at an event iff that is the result of its latest step. -/
theorem State.event?_eq_some_iff {s : State} {e : Event} : s.event? = some e ↔ s.lastResult = some e.result := by
  have key (r : StepResult) : r.event? = some e ↔ r = e.result := by
    cases r <;> cases e <;> simp [StepResult.event?, Event.result]
  simp [State.event?, Option.bind_eq_some_iff, key]

/-! ### `advance` as a loop with fuel -/

section
variable {s t : State} {e : Event} (hst : step s = .next t) (n : Nat)
include hst

theorem advanceWithin_of_event (he : t.event? = some e) : advanceWithin (n + 1) s = some (e, t) := by
  simp [advanceWithin, hst, he]

theorem advanceWithin_of_no_event (he : t.event? = none) : advanceWithin (n + 1) s = advanceWithin n t := by
  simp [advanceWithin, hst, he]

end

/-- What the loop finds within some fuel is what `advance` returns. -/
theorem Advances.of_advanceWithin {n : Nat} {s t : State} {e : Event} (h : advanceWithin n s = some (e, t)) :
    Advances s e t := by
  induction n generalizing s with
  | zero => cases h
  | succ n ih =>
    obtain ⟨u, hst, -⟩ := step_effect s
    rcases hu : u.event? with _ | e'
    · rw [advanceWithin_of_no_event hst n hu] at h
      exact .onward hst hu (ih h)
    · rw [advanceWithin_of_event hst n hu] at h
      cases h
      exact .event hst hu

/-- `advance` is the loop of steps with as much fuel as it takes (R85). -/
theorem advances_iff {s t : State} {e : Event} :
    Advances s e t ↔ ∃ fuel, advanceWithin fuel s = some (e, t) := by
  refine ⟨fun h => ?_, fun ⟨_, h⟩ => .of_advanceWithin h⟩
  induction h with
  | event hst he => exact ⟨1, advanceWithin_of_event hst 0 he⟩
  | onward hst he _ ih =>
    obtain ⟨n, hn⟩ := ih
    exact ⟨n + 1, (advanceWithin_of_no_event hst n he).trans hn⟩

/-- `advance` returns one event and leaves one state: both fuels find the same within the larger one. -/
theorem Advances.unique {s t t' : State} {e e' : Event} (h : Advances s e t) (h' : Advances s e' t') :
    e = e' ∧ t = t' := by
  obtain ⟨n, hn⟩ := advances_iff.mp h
  obtain ⟨m, hm⟩ := advances_iff.mp h'
  have hboth := (advanceWithin_mono (Nat.le_max_left n m) hn).symm.trans
    (advanceWithin_mono (Nat.le_max_right n m) hm)
  exact Prod.mk.inj (Option.some.inj hboth)

/-- `advance` does not return exactly when there is nothing it returns (R88). -/
theorem diverges_iff {s : State} : Diverges s ↔ ¬ ∃ e t, Advances s e t := by
  simp only [Diverges, Option.eq_none_iff_forall_ne_some, advances_iff]
  constructor
  · rintro h ⟨e, t, fuel, hfuel⟩
    exact h fuel (e, t) hfuel
  · rintro h fuel ⟨e, t⟩ hfuel
    exact h ⟨e, t, fuel, hfuel⟩

/-- `advance` ends with a step whose result is the event it returns. -/
theorem Advances.exists_last_step {s t : State} {e : Event} (h : Advances s e t) :
    ∃ k r, Steps k s r ∧ step r = .next t ∧ t.lastResult = some e.result := by
  induction h with
  | @event s t e hst he => exact ⟨0, s, .refl, hst, State.event?_eq_some_iff.mp he⟩
  | onward hst _ _ ih =>
    obtain ⟨k, r, hsteps, hlast, hr⟩ := ih
    exact ⟨k + 1, r, .step hst hsteps, hlast, hr⟩

/-- A step that only reports the event at which the machine stands makes `advance` return it and change nothing. -/
theorem Advances.of_report {s : State} {e : Event} (hr : s.lastResult = some e.result)
    (hst : step s = .next (s.report e.result)) : Advances s e s := by
  have hself : s.report e.result = s := by rw [State.report, ← hr]
  exact .event (hself ▸ hst) (State.event?_eq_some_iff.mpr hr)

/-! ### After an end -/

/-- A machine whose result agrees with its status returns the end it stands at, and changes nothing (R56, R87). -/
theorem Advances.of_resultOk {s : State} {e : Event} (hok : s.resultOk) (hr : s.lastResult = some e.result)
    (he : e.Ends) : Advances s e s := by
  obtain ⟨hhalted, hfaulted⟩ := hok
  obtain rfl | ⟨f, rfl⟩ := he
  · exact .of_report hr (step_of_halted (hhalted.mp hr))
  · exact .of_report hr (step_of_faulted ((hfaulted f).mp hr))

/-! ### At an `in` without input -/

/-- The machine executes an `in` whose destination is the cell `e`, and no input is pending. -/
structure State.WaitsForInput (s : State) (d : Operand) (e : Nat) : Prop where
  executes : s.Executes (.inp d)
  writesTo : s.WritesTo d e
  pending : s.pending = none

/-- Only an `in` that finds its slot empty has the result NeedsInput (R71). -/
theorem step_needsInput {s t : State} (hst : step s = .next t) (hr : t.lastResult = some .needsInput) :
    ∃ d e, s.WaitsForInput d e ∧ t = s.report .needsInput := by
  obtain ⟨-, rfl⟩ | ⟨f, -, rfl⟩ | ⟨-, info, -, rfl⟩ | ⟨i, hi, -, he⟩ := step_next hst
  · cases hr
  · cases hr
  · cases hr
  · cases he with
    | waits hd hp => exact ⟨_, _, ⟨hi, hd, hp⟩, rfl⟩
    | jumpsTrue | jumpsFalse => split at hr <;> cases hr
    | _ => cases hr

section
variable {s : State} {d : Operand} {e : Nat}

/-- No meaning reads `lastResult` (log entry 1), so the machine still waits. -/
theorem State.WaitsForInput.report (h : s.WaitsForInput d e) (r : StepResult) : (s.report r).WaitsForInput d e :=
  ⟨h.executes, h.writesTo, h.pending⟩

/-- A step without input asks for it and changes nothing else (R71, R86). -/
theorem State.WaitsForInput.step (h : s.WaitsForInput d e) : step s = .next (s.report .needsInput) :=
  (step_of_fetch_ok h.executes).trans (exec_inp_of_not_pending h.writesTo h.pending)

/-- With a value provided the same instruction runs and consumes it (R71, R86). -/
theorem State.WaitsForInput.step_provideInput (h : s.WaitsForInput d e) (v : Word) :
    Machine.step (provideInput v s) = .next ({ s.store e v with pending := none }.advance 1) := by
  have hi : (provideInput v s).Executes (.inp d) := h.executes
  have hd : (provideInput v s).WritesTo d e := h.writesTo
  exact (step_of_fetch_ok hi).trans (exec_inp_of_pending hd rfl)

end

/-- When `advance` returns NeedsInput, its last step was from a machine that waits, and reported it alone (R86). -/
theorem Advances.exists_waitsForInput {s t : State} (h : Advances s .needsInput t) :
    ∃ k r d e, Steps k s r ∧ r.WaitsForInput d e ∧ t = r.report .needsInput := by
  obtain ⟨k, r, hsteps, hlast, hr⟩ := h.exists_last_step
  obtain ⟨d, e, hw, ht⟩ := step_needsInput hlast hr
  exact ⟨k, r, d, e, hsteps, hw, ht⟩

/-- A machine that waits and has asked for input asks for it again, and changes nothing (R86). -/
theorem State.WaitsForInput.advances {s : State} {d : Operand} {e : Nat} (h : s.WaitsForInput d e) :
    Advances (s.report .needsInput) .needsInput (s.report .needsInput) :=
  .of_report rfl (h.report .needsInput).step

/-! ### The driver as a loop with fuel -/

/-- More fuel keeps what the driver's loop found. -/
theorem driveWithin_mono {n m rounds : Nat} (hnm : n ≤ m) {s : State} {q outs : List Word} {p : DriverEnd × State}
    (h : driveWithin n rounds s q outs = some p) : driveWithin m rounds s q outs = some p := by
  induction rounds generalizing s q outs with
  | zero => cases h
  | succ rounds ih =>
    unfold driveWithin at h ⊢
    rcases ha : advanceWithin n s with _ | ⟨e, t⟩
    · simp [ha] at h
    · rw [ha] at h
      rw [advanceWithin_mono hnm ha]
      cases e with
      | output v => exact ih h
      | needsInput =>
        cases q with
        | nil => exact h
        | cons v q => exact ih h
      | halted | fault => exact h

/-- What the driver's loop finds within some fuel is an end of the driver. -/
theorem Drives.of_driveWithin {fuel rounds : Nat} {s t : State} {q outs : List Word} {r : DriverEnd}
    (h : driveWithin fuel rounds s q outs = some (r, t)) : Drives s q outs r t := by
  induction rounds generalizing s q outs with
  | zero => cases h
  | succ rounds ih =>
    unfold driveWithin at h
    rcases ha : advanceWithin fuel s with _ | ⟨e, u⟩
    · simp [ha] at h
    · rw [ha] at h
      have hadv := Advances.of_advanceWithin ha
      cases e with
      | output v => exact .output hadv (ih h)
      | needsInput =>
        cases q with
        | nil => cases h; exact .exhausted hadv
        | cons v q => exact .supply hadv (ih h)
      | halted => cases h; exact .halted hadv
      | fault f => cases h; exact .fault hadv

/-- The driver is its loop, with as many rounds as it takes and fuel for the longest of them (R90). -/
theorem drives_iff {s t : State} {q outs : List Word} {r : DriverEnd} :
    Drives s q outs r t ↔ ∃ fuel rounds, driveWithin fuel rounds s q outs = some (r, t) := by
  refine ⟨fun h => ?_, fun ⟨_, _, h⟩ => .of_driveWithin h⟩
  induction h with
  | output hadv _ ih | supply hadv _ ih =>
    obtain ⟨n, hn⟩ := advances_iff.mp hadv
    obtain ⟨m, rounds, hm⟩ := ih
    refine ⟨max n m, rounds + 1, ?_⟩
    rw [driveWithin, advanceWithin_mono (Nat.le_max_left n m) hn]
    exact driveWithin_mono (Nat.le_max_right n m) hm
  | exhausted hadv | halted hadv | fault hadv =>
    obtain ⟨n, hn⟩ := advances_iff.mp hadv
    exact ⟨n, 1, by rw [driveWithin, hn]⟩

/-- A driver that ran out of inputs made its last call of `advance` in vain (R91). -/
theorem Drives.exists_advances_of_inputExhausted {s t : State} {q outs outs' : List Word}
    (h : Drives s q outs (.inputExhausted outs') t) : ∃ r, Advances r .needsInput t := by
  generalize hr : DriverEnd.inputExhausted outs' = r at h
  induction h with
  | output _ _ ih | supply _ _ ih => exact ih hr
  | exhausted hadv => exact ⟨_, hadv⟩
  | halted | fault => cases hr

/-! ### The invariant -/

/-- A running machine that has reported no end meets the invariant if its memory does. -/
theorem State.Onward.inv {s : State} (h : s.Onward) (hmem : s.memOk) : s.Inv :=
  ⟨hmem, h.resultOk, State.latchOk_of_not_faulted (by simp [h.1])⟩

/-- A constructed machine lists cells of its buffer alone, and has reported nothing (R82). -/
theorem construct_inv (config : Config) (B : List Word) (h : B.length < 2 ^ 63) : (construct config B h).Inv := by
  refine State.Onward.inv ⟨rfl, nofun, nofun⟩ ⟨Memory.ofCells_wf 0 B, fun p hp => ?_⟩
  obtain ⟨-, hlt, -⟩ := Memory.mem_ofCells hp
  simpa using hlt

/-- No part of the invariant reads the slot. -/
theorem State.Inv.provideInput {s : State} (h : s.Inv) (v : Word) : (provideInput v s).Inv :=
  ⟨h.memOk, h.resultOk, h.latchOk⟩

theorem Advances.inv {s t : State} {e : Event} (h : Advances s e t) (hs : s.Inv) : t.Inv := by
  induction h with
  | event hst => exact stepKeepsTheInvariant _ _ hs hst
  | onward hst _ _ ih => exact ih (stepKeepsTheInvariant _ _ hs hst)

theorem Run.inv {s t : State} {outs : List Word} {e : Option Event} (h : Run s outs e t) (hs : s.Inv) : t.Inv := by
  induction h with
  | start => exact hs
  | provideInput v _ ih => exact ih.provideInput v
  | output _ hadv ih | needsInput _ hadv ih | halted _ hadv ih | fault _ hadv ih => exact hadv.inv ih

/-! ### The obligations -/

/-- Settles O47, cell by cell. -/
theorem snapshotOfConstructIsTheBuffer : Obligations.SnapshotOfConstructIsTheBuffer := by
  intro config B h
  refine List.ext_getElem (snapshot_length _) fun k hk hkB => ?_
  rw [snapshot_getElem hk, construct_read hkB]

/-- Settles O48: the slot is one field, and a machine that has stopped does not read it. -/
theorem provideInputOnlyFillsTheSlot : Obligations.ProvideInputOnlyFillsTheSlot := fun _ v _ =>
  ⟨rfl, rfl, fun hs => step_provideInput_of_not_running hs v⟩

/-- Settles O49: more fuel finds the same event, so there is one or none. -/
theorem advanceIsTheLoopOfSteps : Obligations.AdvanceIsTheLoopOfSteps :=
  ⟨fun _ _ _ => advances_iff, fun _ _ _ _ _ => Advances.unique, fun _ => diverges_iff⟩

/-- Settles O50: after any step the result agrees with the status, so the next step reports the same end. -/
theorem advanceIsIdempotentAfterTheEnd : Obligations.AdvanceIsIdempotentAfterTheEnd := by
  intro s t e h he
  obtain ⟨k, r, -, hlast, hr⟩ := h.exists_last_step
  have hadv := Advances.of_resultOk (step_resultOk hlast) hr he
  exact ⟨hadv, fun e' u h' => h'.unique hadv⟩

/-- Settles O51: the machine waits, also after the report, and the value provided is what it waited for. -/
theorem resumeAfterNeedsInput : Obligations.ResumeAfterNeedsInput := by
  intro s t h
  obtain ⟨k, r, d, e, hsteps, hw, rfl⟩ := h.exists_waitsForInput
  refine ⟨k, r, d, e, hsteps, hw.executes, hw.writesTo, hw.pending, rfl, hw.advances, fun v => ?_⟩
  exact ⟨_, (hw.report .needsInput).step_provideInput v, rfl, rfl,
    hw.executes.toInt_next.trans (Int.add_assoc _ 1 1), rfl⟩

/-- Settles O53, with no outputs at the start. -/
theorem driverLoopFindsTheDriversEnds : Obligations.DriverLoopFindsTheDriversEnds := fun _ _ _ _ => drives_iff

/-- Settles O54: the driver's last call of `advance` left a machine that waits for input. -/
theorem inputExhaustedLeavesMachineSuspended : Obligations.InputExhaustedLeavesMachineSuspended := by
  intro s t q outs h
  obtain ⟨u, hadv⟩ := h.exists_advances_of_inputExhausted
  obtain ⟨k, r, d, e, -, hw, rfl⟩ := hadv.exists_waitsForInput
  obtain ⟨hi, -, hp⟩ := hw.report .needsInput
  exact ⟨hi.1, hp, ⟨d, hi⟩, hw.advances⟩

/-- Settles O58, along the steps of each `advance` and the port operations of the run. -/
theorem runsKeepTheInvariant : Obligations.RunsKeepTheInvariant :=
  ⟨construct_inv, fun _ _ _ _ hs hrun => hrun.inv hs⟩

end Sys2Proof.Machine
end

section
/-! The obligations of spec 60_exceptions.md: what a faulting step leaves unchanged, and the record it latches. -/

namespace Sys2Proof.Machine

/-- A step that ends faulted reports the fault in the latch again, or takes a fault in the state it started in. -/
theorem step_faulted {s t : State} {f : FaultRecord} (hst : step s = .next t) (hf : t.status = .faulted f) :
    (s.status = .faulted f ∧ t = s.report (.fault f)) ∨
      ∃ info, info.Legal s ∧ f = s.faultRecord info ∧ t = s.takeFault info := by
  rcases step_ends hst with ⟨hs, -⟩ | ⟨f', hs, rfl⟩ | ⟨info, hl, rfl⟩ | ⟨hs, -⟩
  · cases hs.symm.trans hf
  · cases hs.symm.trans hf
    exact .inl ⟨hs, rfl⟩
  · cases hf
    exact .inr ⟨info, hl, rfl, rfl⟩
  · cases hs.symm.trans hf

/-- Settles O21: reporting and taking a fault both leave these fields alone. -/
theorem faultsArePrecise : Obligations.FaultsArePrecise := by
  intro s t f hst hf
  rcases step_faulted hst hf with ⟨-, rfl⟩ | ⟨info, -, -, rfl⟩
  · exact ⟨rfl, rfl, rfl, rfl, rfl, rfl⟩
  · exact ⟨rfl, rfl, rfl, rfl, rfl, rfl⟩

/-- Settles O22: a running machine took the fault, whose shape is that of every fault raised at its state. -/
theorem faultRecordFields : Obligations.FaultRecordFields := by
  intro s t f hs hst hf
  rcases step_faulted hst hf with ⟨hlatched, -⟩ | ⟨info, hl, rfl, rfl⟩
  · cases hs.symm.trans hlatched
  · exact ⟨rfl, rfl, rfl, fun hin => if_pos hin, State.cell?_eq_none_iff.mpr, hl.addr_iff, hl.addr_out, hl.raw_with⟩

end Sys2Proof.Machine
end

section
/-! The obligations of spec 70_reset_and_hazards.md: the state after construction and the reset state. -/

namespace Sys2Proof.Machine

theorem bootBuffer_length {program : List Word} {len : Nat} (h : program.length ≤ len) :
    (bootBuffer program len).length = len := by
  simp [bootBuffer, h]

/-- The cells of the program come first. -/
theorem bootBuffer_getElem_program {program : List Word} {len k : Nat} (hk : k < program.length)
    (hb : k < (bootBuffer program len).length) : (bootBuffer program len)[k] = program[k] :=
  List.getElem_append_left hk

/-- The cells after the program are zeros. -/
theorem bootBuffer_getElem_zero {program : List Word} {len k : Nat} (hk : program.length ≤ k)
    (hb : k < (bootBuffer program len).length) : (bootBuffer program len)[k] = 0 :=
  (List.getElem_append_right hk).trans (List.getElem_replicate _)

/-- Settles O46: memory holds the padded buffer, and `construct` names the other fields. -/
theorem constructSetsEveryField : Obligations.ConstructSetsEveryField := by
  rintro config program len hl h s rfl
  have hlen := bootBuffer_length hl
  refine ⟨fun k hk => ?_, fun k hk hklen => ?_, hlen, rfl, rfl, rfl, rfl⟩
  · have hb : k < (bootBuffer program len).length := by omega
    rw [construct_read hb, bootBuffer_getElem_program hk hb]
  · have hb : k < (bootBuffer program len).length := by omega
    rw [construct_read hb, bootBuffer_getElem_zero hk hb]

/-- Settles O56: memory lists nothing, and the machine runs and has reported nothing. -/
theorem resetMeetsTheInvariant : Obligations.ResetMeetsTheInvariant :=
  State.Onward.inv ⟨rfl, nofun, nofun⟩ ⟨⟨.nil, nofun⟩, nofun⟩

end Sys2Proof.Machine
end
